-- ==== Sys2Proof/Word.lean ====
section
/-! DEFINITION. Word.lean: the two bit-vector types every other file uses. -/

namespace Sys2Proof

/-- A register, a word on the host bus, a command word, a TABLE entry: 32 bits, unsigned (R7, R9, R12). -/
abbrev Word := BitVec 32

/-- One message byte, or one 8-bit field of a command word (R7, R12, R71). -/
abbrev Byte := BitVec 8

end Sys2Proof
end

