-- ==== Sys2Proof/Syntax.lean ====
section
/-! DEFINITION. Syntax.lean: the command set, one constructor per row of spec/opcode_table.json (R73, R74). -/

namespace Sys2Proof

/-- A decoded command (R72, R74, R77). Operands the manual counts with (a width, a table index) are numbers; the
message byte is bits. The wide operands come from ARG0 to ARG2 and are not part of the command word (R72). -/
inductive Instr where
  /-- CONFIGURE: A is the width, F the reflect flag (R106). -/
  | configure (width : Nat) (reflect : Bool)
  /-- INIT.T: open a message on the table path (R161). -/
  | initT
  /-- INIT.N: open a message on the reference path (R162). -/
  | initN
  /-- BYTE: feed the message byte A (R163). -/
  | byte (b : Byte)
  /-- FINAL: close the message, checksum to RESULT (R164). -/
  | final
  /-- MIRROR: A is the mirror width (R93). -/
  | mirror (n : Nat)
  /-- TBLRD: A is the table index (R108). -/
  | tblrd (i : Nat)
  deriving DecidableEq, Repr

end Sys2Proof
end

