-- ==== Sys2Proof/WellFormed.lean ====
section
/-! DEFINITION. WellFormed.lean: which commands have a command word. An operand that travels in field A has eight
bits (R71, R79: "0 ≤ W ≤ 255", likewise N and I). The ranges in which a command SUCCEEDS (width 1 to 32, mirror width
up to 32) are no part of this check: they are checked when the command runs (R77). -/

namespace Sys2Proof

/-- The operand fits field A, so the command has a word (R71, R72, R79). -/
def Instr.wf : Instr → Bool
  | .configure width _ => decide (width < 256)
  | .initT => true
  | .initN => true
  | .byte _ => true
  | .final => true
  | .mirror n => decide (n < 256)
  | .tblrd i => decide (i < 256)

end Sys2Proof
end

