-- ==== Sys2Proof/Decode.lean ====
section
/-! DEFINITION. Decode.lean: the command word's four fields, the decoder (total, each rejection under a name), the
encoder, and the opcode map as match and mask rows (R70 to R78). -/

namespace Sys2Proof

/-- Why a word is ILLEGAL. Every reason raises the one code ILLEGAL_COMMAND (R75, R76, R181); the names only say which
check of R77 refused the word. -/
inductive DecodeError where
  /-- RSV, bits 31 to 17, is not zero (R75). -/
  | reservedNotZero
  /-- OPCODE 0x00 or 0x07 to 0xFF (R76). -/
  | unassignedOpcode
  /-- F is 1 where it must be 0 (R75). -/
  | flagNotZero
  /-- A is not 0 where it must be 0 (R75). -/
  | operandNotZero
  deriving DecidableEq, Repr

/-- The decoder's verdict: a command, or ILLEGAL (R77). -/
inductive Verdict where
  | command (i : Instr)
  | illegal (why : DecodeError)
  deriving DecidableEq, Repr

/-! ### Fields (R71) -/

/-- OPCODE, bits 7 to 0. -/
def opcodeField (cmd : Word) : Byte := cmd.extractLsb' 0 8

/-- A, bits 15 to 8, read as an unsigned 8-bit integer (R72). -/
def operandField (cmd : Word) : Byte := cmd.extractLsb' 8 8

/-- F, bit 16. -/
def flagField (cmd : Word) : Bool := cmd.getLsbD 16

/-- RSV, bits 31 to 17. -/
def reservedField (cmd : Word) : BitVec 15 := cmd.extractLsb' 17 15

/-- A field whose lowest bit is bit `lo` of a 32-bit word, with zeros around it (R9). -/
def placeField {n : Nat} (lo : Nat) (v : BitVec n) : Word := v.setWidth 32 <<< lo

/-- A command word from its fields, with RSV zero (R71, R79). -/
def packWord (f : Bool) (a op : Byte) : Word :=
  placeField 0 op ||| placeField 8 a ||| placeField 16 (BitVec.ofBool f)

/-! ### The decoder (R77) -/

/-- The decoder of R77, in the order of its checks. It reads the word alone (R78). -/
def decode (cmd : Word) : Verdict :=
  let a := operandField cmd
  let f := flagField cmd
  if reservedField cmd ≠ 0#15 then .illegal .reservedNotZero
  else match (opcodeField cmd).toNat with
    | 0x01 => .command (.configure a.toNat f)
    | 0x02 => if a ≠ 0#8 then .illegal .operandNotZero else if f then .command .initN else .command .initT
    | 0x03 => if f then .illegal .flagNotZero else .command (.byte a)
    | 0x04 => if f then .illegal .flagNotZero else if a ≠ 0#8 then .illegal .operandNotZero else .command .final
    | 0x05 => if f then .illegal .flagNotZero else .command (.mirror a.toNat)
    | 0x06 => if f then .illegal .flagNotZero else .command (.tblrd a.toNat)
    | _ => .illegal .unassignedOpcode

/-! ### The encoder (R74, R79) -/

/-- The word of a well-formed command, from the rows of R74 and the assembler words of R79. -/
def encode : Instr → Word
  | .configure width reflect => packWord reflect (BitVec.ofNat 8 width) 0x01#8
  | .initT => packWord false 0#8 0x02#8
  | .initN => packWord true 0#8 0x02#8
  | .byte b => packWord false b 0x03#8
  | .final => packWord false 0#8 0x04#8
  | .mirror n => packWord false (BitVec.ofNat 8 n) 0x05#8
  | .tblrd i => packWord false (BitVec.ofNat 8 i) 0x06#8

/-! ### The opcode map as rows (R74) -/

/-- One row of the match and mask table of R74. -/
structure OpcodeRow where
  mnemonic : String
  mask : Word
  pattern : Word
  deriving DecidableEq, Repr

/-- A word is of a row when it agrees with the row's pattern under the row's mask (R74). -/
def OpcodeRow.covers (r : OpcodeRow) (cmd : Word) : Bool := decide (cmd &&& r.mask = r.pattern)

/-- The seven rows of R74, in its order. -/
def opcodeTable : List OpcodeRow :=
  [⟨"CONFIGURE", 0xFFFE00FF#32, 0x00000001#32⟩,
   ⟨"INIT.T", 0xFFFFFFFF#32, 0x00000002#32⟩,
   ⟨"INIT.N", 0xFFFFFFFF#32, 0x00010002#32⟩,
   ⟨"BYTE", 0xFFFF00FF#32, 0x00000003#32⟩,
   ⟨"FINAL", 0xFFFFFFFF#32, 0x00000004#32⟩,
   ⟨"MIRROR", 0xFFFF00FF#32, 0x00000005#32⟩,
   ⟨"TBLRD", 0xFFFF00FF#32, 0x00000006#32⟩]

/-- The mnemonic of the row a command belongs to (R74). -/
def Instr.mnemonic : Instr → String
  | .configure _ _ => "CONFIGURE"
  | .initT => "INIT.T"
  | .initN => "INIT.N"
  | .byte _ => "BYTE"
  | .final => "FINAL"
  | .mirror _ => "MIRROR"
  | .tblrd _ => "TBLRD"

/-- The instruction the decoder reads from a table word: one 32-bit word and no more (R70). A longer encoding is no
command word. -/
def decodeTableWord (nbits w : Nat) : Option Instr :=
  let bits := w % 2 ^ nbits
  if bits < 2 ^ 32 then
    match decode (BitVec.ofNat 32 bits) with
    | .command i => some i
    | .illegal _ => none
  else none

end Sys2Proof
end

