-- ==== Sys2Proof/Config.lean ====
section
/-! DEFINITION. Config.lean: what the platform fixes, and the free values. Each constant here is opaque and has no
body, so no proof can see its value: a claim about the model is true whatever it is. -/

namespace Sys2Proof

/-- POLYCRC_BASE, the platform address of the 256-byte register space: an open parameter of the spec (92 D36, 93 U8,
R66). No rule of the core depends on it. Log entry 5. -/
opaque Config.polycrcBase : Nat

/-- FREE VALUE (DESIGN CHOICE, safe). What `TABLE[i]` reads as for an index above 255, which R11 and R36 do not define. No reachable state
reads it (R134: the index is below 2^8). Log entry 3. -/
opaque Config.tableBeyond : Nat → Word

/-- FREE VALUE (DESIGN CHOICE, safe). `mirror(value, n)` for n above 32, which R91 puts outside the function's domain. No
command reaches it: MIRROR raises INVALID_OPERAND first (R93), and a WIDTH in force is 1 to 32 (R32). Log entry 15. -/
opaque Config.mirrorBeyond : Word → Nat → Word

/-- FREE VALUE (DESIGN CHOICE, safe). `init_table()` where VARIANT is NONE although an engine is in force, a state R28 and R43 exclude and
R131 gives no case for. Log entry 2. -/
opaque Config.noneVariantInit : Word

/-- FREE VALUE (DESIGN CHOICE, safe). The table-path step of BYTE where VARIANT is NONE although a message is open, a state R28 and R43
exclude and R163 gives no case for. Log entry 2. -/
opaque Config.noneVariantStep : Word → Byte → Word

/-- FREE VALUE (DESIGN CHOICE, safe). `fin_table(acc)` where VARIANT is NONE although a message is open, a state R28 and R43 exclude and R136
gives no case for. Log entry 2. -/
opaque Config.noneVariantFinish : Word → Word

end Sys2Proof
end

