-- ==== Sys2Proof/Machine/State.lean ====
section
/-! DEFINITION. Machine/State.lean: every piece of state the spec gives the core (R20), the host accesses it has still
to perform, the ways a step can stop, and the state after reset (R42). -/

namespace Sys2Proof.Machine

/-- STATUS.PATH: the path of the current or last message (R24, R27). -/
inductive Path where
  /-- 0, the table path. -/
  | table
  /-- 1, the reference path (no table). -/
  | reference
  deriving DecidableEq, Repr

/-- STATUS.VARIANT: the table-path variant of the active configuration (R24, R28). -/
inductive Variant where
  /-- 0, never configured. -/
  | none
  /-- 1, REFLECT = 1. -/
  | reflected
  /-- 2, REFLECT = 0 and not FAST. -/
  | nonreflected
  /-- 3, WIDTH = 8, XOR_IN = 0, XOR_OUT = 0, REFLECT = 0. -/
  | fast
  deriving DecidableEq, Repr

/-- STATUS.ERR: the outcome of the last command (R29, R181). Codes 7 to 15 are reserved and never written (R181, 93
U4), so they are no value of the field. -/
inductive Err where
  /-- 0, every successful command. -/
  | ok
  /-- 1, CONFIGURE with a width outside 1 to 32. -/
  | invalidWidth
  /-- 2, a word the decoder refuses. -/
  | illegalCommand
  /-- 3, MIRROR with a width above 32. -/
  | invalidOperand
  /-- 4, INIT or TBLRD before the first successful CONFIGURE. -/
  | notConfigured
  /-- 5, BYTE or FINAL with no open message. -/
  | noMessage
  /-- 6, CONFIGURE while a message is open. -/
  | messageOpen
  deriving DecidableEq, Repr

/-- The source's engine: the active configuration (R30), its derived constants (R33), VARIANT (R28) and TABLE (R36).
A successful CONFIGURE replaces all of it at once (R31). -/
structure Engine where
  /-- WIDTH, "6 bits of value, held in CFG[7:0]" (R30). -/
  width : BitVec 6
  /-- REFLECT, CFG[8] (R30). -/
  reflect : Bool
  poly : Word
  xorIn : Word
  xorOut : Word
  mask : Word
  msbMask : Word
  /-- CRC_SHIFT, CFG[18:16] (R33, R35). -/
  crcShift : BitVec 3
  reflectedXorIn : Word
  shiftedXorIn : Word
  variant : Variant
  /-- TABLE[0..255], 32 bits stored per entry (R36). -/
  table : Vector Word 256
  deriving DecidableEq, Repr

/-- The width of a host access. Only the 32-bit one has a meaning (R52). -/
inductive AccessWidth where
  | byte
  | half
  | word
  deriving DecidableEq, Repr

/-- The registers of the host register space (R51). -/
inductive Reg where
  | cmd
  | status
  | arg0
  | arg1
  | arg2
  | result
  | acc
  | cfg
  | poly
  | xorIn
  | xorOut
  | mask
  | msbMask
  | reflectedXorIn
  | shiftedXorIn
  deriving DecidableEq, Repr

/-- What reaches the core from outside: a host read, a host write (R51), or the reset input (R200). An offset has eight
bits, since the register space has 256 bytes (R50). -/
inductive HostEvent where
  /-- `MemRead(off, width)`. -/
  | read (off : BitVec 8) (width : AccessWidth)
  /-- `MemWrite(off, width, v)`; a narrow write carries its value in the low bits of `v`, which nothing reads. -/
  | write (off : BitVec 8) (width : AccessWidth) (v : Word)
  /-- The reset input (R200). -/
  | reset
  deriving DecidableEq, Repr

/-- The reasons a step can fault: none. The core has no trap and no fault of any kind (R180, R187); an error of a
command is a code in STATUS.ERR and the machine goes on. -/
inductive Fault where
  deriving DecidableEq, Repr

/-- The reasons a step is refused. -/
inductive Refusal where
  /-- An arm of `exec` without a meaning. No arm raises it: every command has its meaning. Safe. -/
  | notModelled (mnemonic : String)
  /-- Raised by the host bus (`hostRead`, `hostWrite`) for an access that is narrow or misaligned: R52,
  "`refuse(non-word access)`". Safe. -/
  | nonWordAccess
  /-- Raised by the host bus (`hostRead`, `hostWrite`) for an access at 0x3C to 0xFC: R53,
  "`refuse(reserved offset)`". Safe. -/
  | reservedOffset
  deriving DecidableEq, Repr

/-- The state of the core (R20), and two fields of the model's own: the host accesses that have not reached the core
yet, and the value the last access returned (log entry 4). -/
structure State where
  arg0 : Word
  arg1 : Word
  arg2 : Word
  result : Word
  acc : Word
  /-- STATUS.CFG_VALID (R25). -/
  cfgValid : Bool
  /-- STATUS.MSG_OPEN (R26). -/
  msgOpen : Bool
  /-- STATUS.PATH (R27). -/
  path : Path
  /-- STATUS.ERR (R29). -/
  err : Err
  /-- The configuration, derived constants, VARIANT and TABLE (R20, R30 to R37). -/
  engine : Engine
  /-- MODEL'S OWN. What is still to reach the core, in the order in which it will (R63). -/
  pending : List HostEvent
  /-- MODEL'S OWN. The value the last host access returned, if that access was a read (R51, R79). -/
  readData : Option Word
  deriving DecidableEq, Repr

/-- TABLE after reset. The spec leaves it unspecified (R42, R200, 93 U1); the model holds zeros. DESIGN CHOICE, log
entry 1. -/
def resetTable : Vector Word 256 := Vector.replicate 256 0#32

/-- The configuration, derived constants and VARIANT after reset (R28, R42). -/
def Engine.reset : Engine where
  width := 0#6
  reflect := false
  poly := 0#32
  xorIn := 0#32
  xorOut := 0#32
  mask := 0#32
  msbMask := 0#32
  crcShift := 0#3
  reflectedXorIn := 0#32
  shiftedXorIn := 0#32
  variant := .none
  table := resetTable

/-- The state after reset or power-up (R42, R200), with no host access waiting. -/
def State.reset : State where
  arg0 := 0#32
  arg1 := 0#32
  arg2 := 0#32
  result := 0#32
  acc := 0#32
  cfgValid := false
  msgOpen := false
  path := .table
  err := .ok
  engine := Engine.reset
  pending := []
  readData := none

end Sys2Proof.Machine
end

