-- ==== Sys2Proof/Machine/Ops.lean ====
section
/-! DEFINITION. Machine/Ops.lean: the operations every meaning shares: the updates of State, raising an error and
completing a command, the masks of R10 and R33, the bit mirror of R90 and the read of TABLE. -/

namespace Sys2Proof.Machine

/-! ### Updates of State, one name each -/

/-- `STATUS.ERR <- e` (R29). -/
def State.setErr (s : State) (e : Err) : State := { s with err := e }

/-- `x[RESULT] <- v` (R22). -/
def State.setResult (s : State) (v : Word) : State := { s with result := v }

/-- `x[ACC] <- v` (R38). -/
def State.setAcc (s : State) (v : Word) : State := { s with acc := v }

/-- `x[ARG0] <- v`, by the host only (R21, R57). -/
def State.setArg0 (s : State) (v : Word) : State := { s with arg0 := v }

/-- `x[ARG1] <- v`, by the host only (R21, R57). -/
def State.setArg1 (s : State) (v : Word) : State := { s with arg1 := v }

/-- `x[ARG2] <- v`, by the host only (R21, R57). -/
def State.setArg2 (s : State) (v : Word) : State := { s with arg2 := v }

/-- A message opens on path `p` with the initial register `v`: PATH, ACC and MSG_OPEN (R161, R162). -/
def State.openMessage (s : State) (p : Path) (v : Word) : State :=
  { s with path := p, acc := v, msgOpen := true }

/-- The message closes: `STATUS.MSG_OPEN <- 0` (R164). -/
def State.closeMessage (s : State) : State := { s with msgOpen := false }

/-- A new engine comes into force, all of it at once: `STATUS.CFG_VALID <- 1` with it (R31, R106, R107). -/
def State.install (s : State) (e : Engine) : State := { s with engine := e, cfgValid := true }

/-- What is still to reach the core, and the value the access at hand returned. -/
def State.setBus (s : State) (pending : List HostEvent) (readData : Option Word) : State :=
  { s with pending := pending, readData := readData }

/-- The host has further accesses for the core, after those already waiting (R63). -/
def State.post (s : State) (evs : List HostEvent) : State := { s with pending := s.pending ++ evs }

/-! ### The two ends of a command (R180, R182, R183) -/

/-- `raise <Error>(code)`: the command ends, ERR holds the code, and nothing else changes (R11, R180, R182). This is
all the core does on an error: it saves no state, changes no mode, goes to no vector and has no return (R187). -/
def raise (e : Err) (s : State) : Host.Outcome State Fault Refusal := .next (s.setErr e)

/-- A command succeeds: `STATUS.ERR <- 0` on top of its effect (R183). -/
def complete (s : State) : Host.Outcome State Fault Refusal := .next (s.setErr .ok)

/-! ### Masks and derived widths (R10, R33) -/

/-- `mask_n = 2^n - 1`, with `mask_0 = 0` (R10); MASK is `mask_WIDTH`, "computed without 32-bit overflow" (R33). -/
def maskOf (n : Nat) : Word := BitVec.ofNat 32 (2 ^ n - 1)

/-- MSB_MASK, `1 << (WIDTH - 1)` (R33). -/
def msbMaskOf (width : Nat) : Word := 1#32 <<< (width - 1)

/-- CRC_SHIFT, `max(0, 8 - WIDTH)` (R33); subtraction of natural numbers stops at 0. -/
def crcShiftOf (width : Nat) : Nat := 8 - width

/-! ### BitMirror (R90) -/

/-- The loop of R90: `n` rounds over the accumulator and the value. -/
def mirrorLoop : Nat → Word → Word → Word
  | 0, acc, _ => acc
  | n + 1, acc, v => mirrorLoop n ((acc <<< 1) ||| (v &&& 1#32)) (v >>> 1)

/-- `mirror(value, n)`: the low `n` bits of `value` in reverse order (R90). Widths above 32 are outside the function's
domain (R91): a free value, log entry 15. -/
def mirror (value : Word) (n : Nat) : Word :=
  if n ≤ 32 then mirrorLoop n 0#32 value else Config.mirrorBeyond value n

/-- `mirror(b, 8)` of a byte (R103 step 1, R151). -/
def mirrorByte (b : Byte) : Byte := (mirror (b.setWidth 32) 8).setWidth 8

/-! ### TABLE (R36) -/

/-- `TABLE[i]` (R11). An index above 255 names no entry: a free value, log entry 3. -/
def tableRead (t : Vector Word 256) (i : Nat) : Word :=
  if h : i < 256 then t[i] else Config.tableBeyond i

/-- A TABLE whose entry `i` is `entry i`, for every byte value `i` (R102). -/
def tableOf (entry : Nat → Word) : Vector Word 256 :=
  ⟨⟨(List.range 256).map entry⟩, by simp⟩

end Sys2Proof.Machine
end

