-- ==== Sys2Proof/Machine/Flags.lean ====
section
/-! DEFINITION. Machine/Flags.lean: the codes of the STATUS fields and the words STATUS and CFG, field by field (R24,
R35, R181). The core has no condition codes other than these (R41). -/

namespace Sys2Proof.Machine

/-- The code in STATUS.ERR (R181). -/
def Err.code : Err → BitVec 4
  | .ok => 0#4
  | .invalidWidth => 1#4
  | .illegalCommand => 2#4
  | .invalidOperand => 3#4
  | .notConfigured => 4#4
  | .noMessage => 5#4
  | .messageOpen => 6#4

/-- The code in STATUS.VARIANT (R24, R28). -/
def Variant.code : Variant → BitVec 2
  | .none => 0#2
  | .reflected => 1#2
  | .nonreflected => 2#2
  | .fast => 3#2

/-- The bit in STATUS.PATH (R24, R27). -/
def Path.code : Path → BitVec 1
  | .table => 0#1
  | .reference => 1#1

/-- STATUS (R24): CFG_VALID at bit 0, MSG_OPEN at 1, PATH at 2, VARIANT at [5:4], ERR at [11:8]. Reserved bits read
0. -/
def statusWord (s : State) : Word :=
  placeField 0 (BitVec.ofBool s.cfgValid) ||| placeField 1 (BitVec.ofBool s.msgOpen) ||| placeField 2 s.path.code
    ||| placeField 4 s.engine.variant.code ||| placeField 8 s.err.code

/-- CFG (R35): WIDTH at [7:0], REFLECT at 8, CRC_SHIFT at [18:16]. Reserved bits read 0. -/
def cfgWord (s : State) : Word :=
  placeField 0 s.engine.width ||| placeField 8 (BitVec.ofBool s.engine.reflect) ||| placeField 16 s.engine.crcShift

end Sys2Proof.Machine
end

