-- ==== Sys2Proof/Machine/Operands.lean ====
section
/-! DEFINITION. Machine/Operands.lean: where an operand comes from: the registers of the host register space, their
offsets and what each reads as (R51). The byte, width and index of field A are taken by the decoder (R72). -/

namespace Sys2Proof.Machine

/-- The registers in the order of R51. -/
def Reg.all : List Reg :=
  [.cmd, .status, .arg0, .arg1, .arg2, .result, .acc, .cfg, .poly, .xorIn, .xorOut, .mask, .msbMask, .reflectedXorIn,
   .shiftedXorIn]

/-- A register's byte offset (R51). -/
def Reg.offset : Reg → BitVec 8
  | .cmd => 0x00#8
  | .status => 0x04#8
  | .arg0 => 0x08#8
  | .arg1 => 0x0C#8
  | .arg2 => 0x10#8
  | .result => 0x14#8
  | .acc => 0x18#8
  | .cfg => 0x1C#8
  | .poly => 0x20#8
  | .xorIn => 0x24#8
  | .xorOut => 0x28#8
  | .mask => 0x2C#8
  | .msbMask => 0x30#8
  | .reflectedXorIn => 0x34#8
  | .shiftedXorIn => 0x38#8

/-- The register at an offset; none at a reserved or misaligned one (R51, R53). -/
def regAt (off : BitVec 8) : Option Reg := Reg.all.find? (fun r => r.offset == off)

/-- What a host read of a register returns: its current value, and 0 for CMD (R51, R55, R56). -/
def readReg (r : Reg) (s : State) : Word :=
  match r with
  | .cmd => 0#32
  | .status => statusWord s
  | .arg0 => s.arg0
  | .arg1 => s.arg1
  | .arg2 => s.arg2
  | .result => s.result
  | .acc => s.acc
  | .cfg => cfgWord s
  | .poly => s.engine.poly
  | .xorIn => s.engine.xorIn
  | .xorOut => s.engine.xorOut
  | .mask => s.engine.mask
  | .msbMask => s.engine.msbMask
  | .reflectedXorIn => s.engine.reflectedXorIn
  | .shiftedXorIn => s.engine.shiftedXorIn

/-- The 32-bit operands of CONFIGURE after the silent masking of R101: poly, xor_in and xor_out from ARG0 to ARG2. -/
def configureOperands (width : Nat) (s : State) : Word × Word × Word :=
  (s.arg0 &&& maskOf width, s.arg1 &&& maskOf width, s.arg2 &&& maskOf width)

end Sys2Proof.Machine
end

