-- ==== Sys2Proof/Machine/BitMirror.lean ====
section
/-! DEFINITION. Machine/BitMirror.lean: the family of 40_bitmirror.md: MIRROR. -/

namespace Sys2Proof.Machine

/-- MIRROR (R93): the low `n` bits of ARG0, mirrored, into RESULT. It needs no configuration and no message. -/
def execMirror (n : Nat) (s : State) : Host.Outcome State Fault Refusal :=
  if 32 < n then raise .invalidOperand s
  else complete (s.setResult (mirror s.arg0 n))

end Sys2Proof.Machine
end

