-- ==== Sys2Proof/Machine/TablePath.lean ====
section
/-! DEFINITION. Machine/TablePath.lean: the pure functions of 42_calculate_table.md: initial register, per-byte step and
finish of the table path, and `calculate`. They read the engine and the bytes and nothing else (R130, R139). -/

namespace Sys2Proof.Machine

/-- CRC_SHIFT as the number it is used as. -/
def Engine.cs (e : Engine) : Nat := e.crcShift.toNat

/-- WIDTH as the number it is used as. -/
def Engine.w (e : Engine) : Nat := e.width.toNat

/-- The shift that brings the register's top byte to the bottom, `w - 8 + cs` (R133). Outside the invariant the
subtraction stops at 0: log entry 7. -/
def Engine.align (e : Engine) : Nat := e.w + e.cs - 8

/-- `init_table()` (R131). VARIANT = NONE is no case of the rule: a free value, log entry 2. -/
def initTable (e : Engine) : Word :=
  match e.variant with
  | .reflected => e.reflectedXorIn
  | .nonreflected => e.shiftedXorIn
  | .fast => 0#32
  | .none => Config.noneVariantInit

/-- `step_reflected(acc, b)` (R132). -/
def stepReflected (e : Engine) (acc : Word) (b : Byte) : Word :=
  let idx := (acc ^^^ b.setWidth 32) &&& 0xFF#32
  (tableRead e.table idx.toNat ^^^ (acc >>> 8)) &&& e.mask

/-- `step_nonreflected(acc, b)` (R133), with the final mask over the whole XOR (C6). -/
def stepNonreflected (e : Engine) (acc : Word) (b : Byte) : Word :=
  let idx := ((acc >>> e.align) ^^^ b.setWidth 32) &&& 0xFF#32
  let t := tableRead e.table idx.toNat <<< e.cs
  let s := acc <<< (8 - e.cs)
  (t ^^^ s) &&& (e.mask <<< e.cs)

/-- `step_fast(acc, b)` (R134). The index is not masked: for acc below 2^8 it is below 2^8. -/
def stepFast (e : Engine) (acc : Word) (b : Byte) : Word :=
  tableRead e.table (acc ^^^ b.setWidth 32).toNat

/-- The table path's step, chosen by VARIANT and never by the input (R130, R163). VARIANT = NONE is no case of the
rule: a free value, log entry 2. -/
def stepTable (e : Engine) (acc : Word) (b : Byte) : Word :=
  match e.variant with
  | .reflected => stepReflected e acc b
  | .nonreflected => stepNonreflected e acc b
  | .fast => stepFast e acc b
  | .none => Config.noneVariantStep acc b

/-- `fin_table(acc)` (R136): no final mirror (C7). VARIANT = NONE is no case of the rule: a free value, log entry 2. -/
def finTable (e : Engine) (acc : Word) : Word :=
  match e.variant with
  | .reflected => acc ^^^ e.xorOut
  | .nonreflected => (acc >>> e.cs) ^^^ e.xorOut
  | .fast => acc
  | .none => Config.noneVariantFinish acc

/-- `calculate(bs)` (R137). -/
def calculate (e : Engine) (bs : List Byte) : Word :=
  finTable e (bs.foldl (stepTable e) (initTable e))

end Sys2Proof.Machine
end

