-- ==== Sys2Proof/Machine/ReferencePath.lean ====
section
/-! DEFINITION. Machine/ReferencePath.lean: the pure functions of 43_calculate_no_table.md: the bit-serial reference
path. They read neither TABLE nor VARIANT (R153). -/

namespace Sys2Proof.Machine

/-- `init_ref()` (R150). -/
def initRef (e : Engine) : Word := e.xorIn

/-- One bit-step of R151: bit `k` of `b` into the register. -/
def refBit (e : Engine) (b : Byte) (acc : Word) (k : Nat) : Word :=
  let top := acc &&& e.msbMask
  let top := if b.getLsbD k then top ^^^ e.msbMask else top
  let acc := acc <<< 1
  let acc := if top ≠ 0#32 then acc ^^^ e.poly else acc
  acc &&& e.mask

/-- `step_ref(acc, b)` (R151): the byte mirrored when REFLECT is set, then its bits 7 down to 0. -/
def stepRef (e : Engine) (acc : Word) (b : Byte) : Word :=
  let b := if e.reflect then mirrorByte b else b
  [7, 6, 5, 4, 3, 2, 1, 0].foldl (refBit e b) acc

/-- `fin_ref(acc)` (R152). -/
def finRef (e : Engine) (acc : Word) : Word :=
  (if e.reflect then mirror acc e.w else acc) ^^^ e.xorOut

/-- `calculate_no_table(bs)` (R153). -/
def calculateNoTable (e : Engine) (bs : List Byte) : Word :=
  finRef e (bs.foldl (stepRef e) (initRef e))

end Sys2Proof.Machine
end

