-- ==== Sys2Proof/Machine/Message.lean ====
section
/-! DEFINITION. Machine/Message.lean: the family of 44_message_commands.md: INIT.T, INIT.N, BYTE, FINAL. -/

namespace Sys2Proof.Machine

/-- The initial register of a message on a path (R131, R150). -/
def initOn (p : Path) (e : Engine) : Word :=
  match p with
  | .table => initTable e
  | .reference => initRef e

/-- The per-byte step of a message on a path (R163). -/
def stepOn (p : Path) (e : Engine) (acc : Word) (b : Byte) : Word :=
  match p with
  | .table => stepTable e acc b
  | .reference => stepRef e acc b

/-- The finish of a message on a path (R164). -/
def finOn (p : Path) (e : Engine) (acc : Word) : Word :=
  match p with
  | .table => finTable e acc
  | .reference => finRef e acc

/-- What a message on a path computes over its bytes (R165). -/
def checksumOn (p : Path) (e : Engine) (bs : List Byte) : Word :=
  match p with
  | .table => calculate e bs
  | .reference => calculateNoTable e bs

/-- INIT on either path (R161, R162): needs an engine, and opens a message in place of any open one (R160). -/
def openOn (p : Path) (s : State) : Host.Outcome State Fault Refusal :=
  if s.cfgValid then complete (s.openMessage p (initOn p s.engine))
  else raise .notConfigured s

/-- INIT.T (R161). -/
def execInitT (s : State) : Host.Outcome State Fault Refusal := openOn .table s

/-- INIT.N (R162). -/
def execInitN (s : State) : Host.Outcome State Fault Refusal := openOn .reference s

/-- BYTE (R163). -/
def execByte (b : Byte) (s : State) : Host.Outcome State Fault Refusal :=
  if s.msgOpen then complete (s.setAcc (stepOn s.path s.engine s.acc b))
  else raise .noMessage s

/-- FINAL (R164): the checksum into RESULT; ACC and PATH stay. -/
def execFinal (s : State) : Host.Outcome State Fault Refusal :=
  if s.msgOpen then complete ((s.setResult (finOn s.path s.engine s.acc)).closeMessage)
  else raise .noMessage s

end Sys2Proof.Machine
end

