-- ==== Sys2Proof/Machine/Parameters.lean ====
section
/-! DEFINITION. Machine/Parameters.lean: the family of 41_parameters_and_table.md: table generation (R102, R103), the
variant choice (R105), the engine CONFIGURE builds (R33, R106), and the commands CONFIGURE and TBLRD. -/

namespace Sys2Proof.Machine

/-! ### Table generation (R103) -/

/-- One round of step 3: shift left, and XOR with the shifted poly when the tested bit was set. -/
def tableRound (width : Nat) (poly reg : Word) : Word :=
  if reg &&& (msbMaskOf width <<< crcShiftOf width) ≠ 0#32 then
    (reg <<< 1) ^^^ (poly <<< crcShiftOf width)
  else reg <<< 1

/-- `n` rounds of step 3. -/
def tableRounds (width : Nat) (poly : Word) : Nat → Word → Word
  | 0, reg => reg
  | n + 1, reg => tableRounds width poly n (tableRound width poly reg)

/-- Steps 1 and 2: the index, mirrored when REFLECT is set, aligned with the register's high end. The shift amount
`width - 8 + crc_shift` is `max(0, width - 8)` (C2). -/
def tableSeed (width : Nat) (reflect : Bool) (i : Nat) : Word :=
  (if reflect then mirror (BitVec.ofNat 32 i) 8 else BitVec.ofNat 32 i) <<< (width + crcShiftOf width - 8)

/-- `table_entry(i)` for a configuration of the given width, poly and reflect flag (R103). XOR_IN and XOR_OUT play no
part (R104). -/
def tableEntry (width : Nat) (poly : Word) (reflect : Bool) (i : Nat) : Word :=
  let cs := crcShiftOf width
  let reg := tableRounds width poly 8 (tableSeed width reflect i)
  let reg := if reflect then mirror (reg >>> cs) width <<< cs else reg
  (reg >>> cs) &&& maskOf width

/-! ### The variant (R105) -/

/-- `variant(w, xor_in', xor_out', reflect)`, on the masked values. REFLECT is tested first (C5). -/
def variantOf (width : Nat) (xorIn xorOut : Word) (reflect : Bool) : Variant :=
  if reflect then .reflected
  else if width = 8 ∧ xorIn = 0#32 ∧ xorOut = 0#32 then .fast
  else .nonreflected

/-! ### The engine (R33, R106) -/

/-- The whole engine of a parameter set already masked: the configuration, the derived constants of R33, the variant of
R105 and the 256 entries of R103. -/
def Engine.build (width : Nat) (reflect : Bool) (poly xorIn xorOut : Word) : Engine where
  width := BitVec.ofNat 6 width
  reflect := reflect
  poly := poly
  xorIn := xorIn
  xorOut := xorOut
  mask := maskOf width
  msbMask := msbMaskOf width
  crcShift := BitVec.ofNat 3 (crcShiftOf width)
  reflectedXorIn := mirror xorIn width
  shiftedXorIn := xorIn <<< crcShiftOf width
  variant := variantOf width xorIn xorOut reflect
  table := tableOf (tableEntry width poly reflect)

/-- The engine CONFIGURE builds in state `s`: the parameters of ARG0 to ARG2, masked (R101, R106). -/
def configuredEngine (width : Nat) (reflect : Bool) (s : State) : Engine :=
  let (poly, xorIn, xorOut) := configureOperands width s
  Engine.build width reflect poly xorIn xorOut

/-! ### The commands -/

/-- CONFIGURE (R106): the width check, then the message check (R184), then the new engine all at once (R107). -/
def execConfigure (width : Nat) (reflect : Bool) (s : State) : Host.Outcome State Fault Refusal :=
  if width < 1 ∨ 32 < width then raise .invalidWidth s
  else if s.msgOpen then raise .messageOpen s
  else complete (s.install (configuredEngine width reflect s))

/-- TBLRD (R108): one TABLE entry into RESULT. -/
def execTblrd (i : Nat) (s : State) : Host.Outcome State Fault Refusal :=
  if s.cfgValid then complete (s.setResult (tableRead s.engine.table i))
  else raise .notConfigured s

end Sys2Proof.Machine
end

