-- ==== Sys2Proof/Machine/Dispatch.lean ====
section
/-! DEFINITION. Machine/Dispatch.lean: one arm per command (R80). -/

namespace Sys2Proof.Machine

def exec (i : Instr) (s : State) : Host.Outcome State Fault Refusal :=
  match i with
  | .configure width reflect => Sys2Proof.Machine.execConfigure width reflect s
  | .initT => Sys2Proof.Machine.execInitT s
  | .initN => Sys2Proof.Machine.execInitN s
  | .byte b => Sys2Proof.Machine.execByte b s
  | .final => Sys2Proof.Machine.execFinal s
  | .mirror n => Sys2Proof.Machine.execMirror n s
  | .tblrd idx => Sys2Proof.Machine.execTblrd idx s

end Sys2Proof.Machine
end

