-- ==== Sys2Proof/Machine/HostBus.lean ====
section
/-! DEFINITION. Machine/HostBus.lean: the host accesses: which are refused (R52, R53), what a read returns (R55, R56),
what a write does (R54, R55, R57), the execution of a command word (R80), and reset (R200). -/

namespace Sys2Proof.Machine

/-- `execute(cmd)` (R80): an illegal word raises ILLEGAL_COMMAND, a command runs. -/
def execute (cmd : Word) (s : State) : Host.Outcome State Fault Refusal :=
  match decode cmd with
  | .illegal _ => raise .illegalCommand s
  | .command i => exec i s

/-- An aligned 32-bit access (R52). -/
def isWordAccess (off : BitVec 8) (width : AccessWidth) : Bool :=
  decide (width = .word) && decide (off.toNat % 4 = 0)

/-- The effect of a host write to an assigned register: CMD executes, ARG0 to ARG2 store, the rest ignore it (R54, R55,
R57). -/
def writeReg (r : Reg) (v : Word) (s : State) : Host.Outcome State Fault Refusal :=
  match r with
  | .cmd => execute v s
  | .arg0 => .next (s.setArg0 v)
  | .arg1 => .next (s.setArg1 v)
  | .arg2 => .next (s.setArg2 v)
  | .status | .result | .acc | .cfg | .poly | .xorIn | .xorOut | .mask | .msbMask | .reflectedXorIn
  | .shiftedXorIn => .next s

/-- `MemRead(off, width)`: the register's value on the bus, and no other effect (R51, R56). -/
def hostRead (off : BitVec 8) (width : AccessWidth) (s : State) : Host.Outcome State Fault Refusal :=
  if isWordAccess off width then
    match regAt off with
    | none => .refused .reservedOffset
    | some r => .next (s.setBus s.pending (some (readReg r s)))
  else .refused .nonWordAccess

/-- `MemWrite(off, width, v)` (R51, R57). -/
def hostWrite (off : BitVec 8) (width : AccessWidth) (v : Word) (s : State) : Host.Outcome State Fault Refusal :=
  if isWordAccess off width then
    match regAt off with
    | none => .refused .reservedOffset
    | some r => writeReg r v s
  else .refused .nonWordAccess

/-- One event from outside, as one atomic step (R62, R200). Reset sets every piece of state to its reset value; what has
not reached the core yet is not the core's state and stays. -/
def perform (ev : HostEvent) (s : State) : Host.Outcome State Fault Refusal :=
  match ev with
  | .read off width => hostRead off width s
  | .write off width v => hostWrite off width v s
  | .reset => .next (State.reset.setBus s.pending none)

end Sys2Proof.Machine
end

