-- ==== Sys2Proof/Machine/Step.lean ====
section
/-! DEFINITION. Machine/Step.lean: one step of the core. It has no program counter and fetches nothing (R23): a step
performs the next host access, in the order in which the accesses reach the core (R63), and the core holds its state
while there is none (R193). -/

namespace Sys2Proof.Machine

/-- One step: the next host event, or nothing (R63, R193). -/
def step (s : State) : Host.Outcome State Fault Refusal :=
  match s.pending with
  | [] => .next s
  | ev :: rest => perform ev (s.setBus rest none)

/-- `s` with the host's write of a command word to CMD put first among the accesses still to be performed (R55), so that
the next step runs it. Log entry 4. -/
def State.withFetchWord (s : State) (nbits w : Nat) : State :=
  s.setBus (.write Reg.cmd.offset .word (BitVec.ofNat 32 (w % 2 ^ nbits)) :: s.pending) s.readData

end Sys2Proof.Machine
end

