-- ==== Sys2Proof/Machine/Assembler.lean ====
section
/-! DEFINITION. Machine/Assembler.lean: the statements of the spec's assembly language, their bounds, the host accesses
each stands for, and their written form (R79); and the catalog of standard models (R110). It is the host's notation for
what reaches the core and has no hardware meaning beyond its expansion (92 D27). -/

namespace Sys2Proof.Machine

/-! ### The catalog (R110) -/

/-- One row of the catalog: the first six columns of R110, which are the source's. -/
structure Model where
  name : String
  width : Nat
  poly : Word
  xorIn : Word
  xorOut : Word
  reflect : Bool
  deriving DecidableEq, Repr

/-- The eight standard models (R110). -/
def catalog : List Model :=
  [⟨"crc1", 1, 0x01#32, 0x00#32, 0x00#32, false⟩,
   ⟨"crc6", 6, 0x2F#32, 0x00#32, 0x00#32, false⟩,
   ⟨"crc8", 8, 0x07#32, 0x00#32, 0x00#32, false⟩,
   ⟨"crc10", 10, 0x233#32, 0x000#32, 0x000#32, false⟩,
   ⟨"crc16", 16, 0x8005#32, 0x0000#32, 0x0000#32, true⟩,
   ⟨"crc24", 24, 0x864CFB#32, 0xB704CE#32, 0x000000#32, false⟩,
   ⟨"crc32", 32, 0x04C11DB7#32, 0xFFFFFFFF#32, 0xFFFFFFFF#32, true⟩,
   ⟨"crc32c", 32, 0x1EDC6F41#32, 0xFFFFFFFF#32, 0xFFFFFFFF#32, true⟩]

/-- The engine a catalog model's `cfg NAME` builds (R106, R110). -/
def Model.engine (m : Model) : Engine := Engine.build m.width m.reflect m.poly m.xorIn m.xorOut

/-! ### Statements (R79) -/

/-- A statement of the assembly language. Operands are the numbers as written; `assemble` checks their bounds. -/
inductive Asm where
  | wr (reg : Reg) (v : Nat)
  | rd (reg : Reg)
  | configure (w r : Nat)
  | initT
  | initN
  | byte (b : Nat)
  | final
  | mirror (n : Nat)
  | tblrd (i : Nat)
  /-- `.word X`. -/
  | word (x : Nat)
  /-- `cfg NAME`. -/
  | cfg (name : String)
  /-- `cfgp W, P, XI, XO, R`. -/
  | cfgp (w p xi xo r : Nat)
  /-- `crc.t B0, ..., Bn-1`. -/
  | crcT (bs : List Nat)
  /-- `crc.n B0, ..., Bn-1`. -/
  | crcN (bs : List Nat)
  /-- `crc.t "text"`. -/
  | crcText (text : String)
  /-- `mirrorv V, N`. -/
  | mirrorv (v n : Nat)
  deriving DecidableEq, Repr

/-- `wr REG, v` as a host access (R79). -/
def wrEvent (r : Reg) (v : Word) : HostEvent := .write r.offset .word v

/-- A command as the host's write of its word to CMD (R79). -/
def cmdEvent (i : Instr) : HostEvent := wrEvent .cmd (encode i)

/-- A command, unless an operand is outside its bound (R79). -/
def assembleInstr (i : Instr) : Option HostEvent := if i.wf then some (cmdEvent i) else none

/-- A 32-bit value, unless it does not fit. -/
def assembleValue (v : Nat) : Option Word := if v < 2 ^ 32 then some (BitVec.ofNat 32 v) else none

/-- A flag operand, R ∈ {0, 1} (R79). -/
def assembleFlag (r : Nat) : Option Bool := if r ≤ 1 then some (r == 1) else none

/-- A message byte, 0 to 255 (R79). -/
def assembleByte (b : Nat) : Option Byte := if b < 256 then some (BitVec.ofNat 8 b) else none

/-- A whole message on a path: INIT, one BYTE per byte, FINAL (R79). -/
def messageEvents (p : Path) (bs : List Byte) : List HostEvent :=
  cmdEvent (match p with | .table => .initT | .reference => .initN) ::
    (bs.map (fun b => cmdEvent (.byte b)) ++ [cmdEvent .final])

/-- The four accesses of `cfg` and `cfgp` (R79). -/
def cfgEvents (w : Nat) (p xi xo : Word) (r : Bool) : Option (List HostEvent) :=
  (assembleInstr (.configure w r)).map (fun c => [wrEvent .arg0 p, wrEvent .arg1 xi, wrEvent .arg2 xo, c])

/-- The UTF-8 bytes of a text, in order (R61, R79). -/
def utf8Bytes (text : String) : List Byte :=
  (text.toList.flatMap String.utf8EncodeChar).map (fun u => BitVec.ofNat 8 u.toNat)

/-- The host accesses a statement stands for; none when the assembler refuses an operand (R79). -/
def assemble : Asm → Option (List HostEvent)
  | .wr reg v => (assembleValue v).map (fun v => [wrEvent reg v])
  | .rd reg => some [.read reg.offset .word]
  | .configure w r => (assembleFlag r).bind (fun r => (assembleInstr (.configure w r)).map (fun c => [c]))
  | .initT => some [cmdEvent .initT]
  | .initN => some [cmdEvent .initN]
  | .byte b => (assembleByte b).map (fun b => [cmdEvent (.byte b)])
  | .final => some [cmdEvent .final]
  | .mirror n => (assembleInstr (.mirror n)).map (fun c => [c])
  | .tblrd i => (assembleInstr (.tblrd i)).map (fun c => [c])
  | .word x => (assembleValue x).map (fun x => [wrEvent .cmd x])
  | .cfg name =>
    (catalog.find? (fun m => m.name == name)).bind (fun m => cfgEvents m.width m.poly m.xorIn m.xorOut m.reflect)
  | .cfgp w p xi xo r =>
    (assembleValue p).bind fun p => (assembleValue xi).bind fun xi => (assembleValue xo).bind fun xo =>
      (assembleFlag r).bind fun r => cfgEvents w p xi xo r
  | .crcT bs => (bs.mapM assembleByte).map (messageEvents .table)
  | .crcN bs => (bs.mapM assembleByte).map (messageEvents .reference)
  | .crcText text => some (messageEvents .table (utf8Bytes text))
  | .mirrorv v n =>
    (assembleValue v).bind fun v => (assembleInstr (.mirror n)).map fun c => [wrEvent .arg0 v, c]

/-- The host accesses of a program, statement after statement. -/
def assembleAll (p : List Asm) : Option (List HostEvent) := (p.mapM assemble).map List.flatten

/-! ### The written form (R79): mnemonics in either case, numbers decimal or `0x` hexadecimal -/

/-- The register names of R51, as that table spells them. -/
def Reg.name : Reg → String
  | .cmd => "CMD"
  | .status => "STATUS"
  | .arg0 => "ARG0"
  | .arg1 => "ARG1"
  | .arg2 => "ARG2"
  | .result => "RESULT"
  | .acc => "ACC"
  | .cfg => "CFG"
  | .poly => "POLY"
  | .xorIn => "XOR_IN"
  | .xorOut => "XOR_OUT"
  | .mask => "MASK"
  | .msbMask => "MSB_MASK"
  | .reflectedXorIn => "REFLECTED_XOR_IN"
  | .shiftedXorIn => "SHIFTED_XOR_IN"

/-- The pieces of a text between the separators. -/
def splitAtChar (sep : Char) : List Char → List (List Char)
  | [] => [[]]
  | c :: cs =>
    match splitAtChar sep cs with
    | [] => [[c]]
    | piece :: rest => if c = sep then [] :: piece :: rest else (c :: piece) :: rest

/-- A text without the blanks at its two ends. The only blank is U+0020 (DESIGN CHOICE, log entry 13: R79 is silent). -/
def trimSpaces (cs : List Char) : List Char :=
  ((cs.dropWhile (fun c => c = ' ')).reverse.dropWhile (fun c => c = ' ')).reverse

/-- The value of a digit in bases up to 16. -/
def digitValue (c : Char) : Option Nat :=
  let n := c.toNat
  if 48 ≤ n ∧ n ≤ 57 then some (n - 48)
  else if 65 ≤ n ∧ n ≤ 70 then some (n - 55)
  else if 97 ≤ n ∧ n ≤ 102 then some (n - 87)
  else none

/-- Digits of a base, most significant first. -/
def parseDigits (base : Nat) : Nat → List Char → Option Nat
  | value, [] => some value
  | value, c :: cs =>
    match digitValue c with
    | some d => if d < base then parseDigits base (value * base + d) cs else none
    | none => none

/-- A number, decimal or `0x` hexadecimal (R79). -/
def parseNumber : List Char → Option Nat
  | [] => none
  | ['0', 'x'] => none
  | '0' :: 'x' :: cs => parseDigits 16 0 cs
  | cs => parseDigits 10 0 cs

/-- A register name (R51, R79). -/
def parseReg (cs : List Char) : Option Reg := Reg.all.find? (fun r => r.name.toList == cs)

/-- The operands of a statement, separated by commas; none at all for an empty text. -/
def parseOperands (cs : List Char) : List (List Char) :=
  if trimSpaces cs = [] then [] else (splitAtChar ',' cs).map trimSpaces

/-- The text between the first and the last character of an operand, when both are double quotes (code 34). A quote in
between stands for itself, and there is no escape (DESIGN CHOICE, log entry 13: R79 is silent). -/
def parseQuoted (cs : List Char) : Option String :=
  match cs.map Char.toNat, cs, cs.reverse with
  | 34 :: _ :: _, _ :: body, last :: _ => if last.toNat = 34 then some (String.ofList body.dropLast) else none
  | _, _, _ => none

/-- One statement as R79 writes it. What R79 leaves open of the spelling (which characters are blanks, quotes inside a
text, the case of names and of hexadecimal digits) is settled here and in the parsers above: DESIGN CHOICE, log entry
13. -/
def parseStatement (line : String) : Option Asm :=
  let cs := trimSpaces line.toList
  let mnemonic := String.ofList ((cs.takeWhile (fun c => c ≠ ' ')).map Char.toLower)
  let text := trimSpaces (cs.dropWhile (fun c => c ≠ ' '))
  let operands := parseOperands text
  match mnemonic, operands with
  | "wr", [reg, v] => (parseReg reg).bind fun reg => (parseNumber v).map fun v => .wr reg v
  | "rd", [reg] => (parseReg reg).map .rd
  | "configure", [w, r] => (parseNumber w).bind fun w => (parseNumber r).map fun r => .configure w r
  | "init.t", [] => some .initT
  | "init.n", [] => some .initN
  | "byte", [b] => (parseNumber b).map .byte
  | "final", [] => some .final
  | "mirror", [n] => (parseNumber n).map .mirror
  | "tblrd", [i] => (parseNumber i).map .tblrd
  | ".word", [x] => (parseNumber x).map .word
  | "cfg", [name] => some (.cfg (String.ofList name))
  | "cfgp", [w, p, xi, xo, r] =>
    (parseNumber w).bind fun w => (parseNumber p).bind fun p => (parseNumber xi).bind fun xi =>
      (parseNumber xo).bind fun xo => (parseNumber r).map fun r => .cfgp w p xi xo r
  | "crc.t", _ =>
    match parseQuoted text with
    | some body => some (.crcText body)
    | none => (operands.mapM parseNumber).map .crcT
  | "crc.n", _ => (operands.mapM parseNumber).map .crcN
  | "mirrorv", [v, n] => (parseNumber v).bind fun v => (parseNumber n).map fun n => .mirrorv v n
  | _, _ => none

end Sys2Proof.Machine
end

