-- ==== Sys2Proof/Machine/Platform.lean ====
section
/-! DEFINITION. Machine/Platform.lean: where the register space sits in the platform's address map (R66, 92 D36, 93 U8).
The base is the open parameter `Config.polycrcBase`; the core itself knows offsets only. -/

namespace Sys2Proof.Machine

/-- The offset at which a platform address reaches the core: the 256 bytes from POLYCRC_BASE on (R50, 92 D36). Other
addresses do not reach this core. -/
def platformOffset (addr : Nat) : Option (BitVec 8) :=
  if Config.polycrcBase ≤ addr ∧ addr < Config.polycrcBase + 256 then
    some (BitVec.ofNat 8 (addr - Config.polycrcBase))
  else none

/-- A host's read at a platform address, as the event that reaches the core. -/
def platformRead (addr : Nat) (width : AccessWidth) : Option HostEvent :=
  (platformOffset addr).map (fun off => .read off width)

/-- A host's write at a platform address, as the event that reaches the core. -/
def platformWrite (addr : Nat) (width : AccessWidth) (v : Word) : Option HostEvent :=
  (platformOffset addr).map (fun off => .write off width v)

end Sys2Proof.Machine
end

