-- ==== Sys2Proof/Safety.lean ====
section
/-! DEFINITION. Safety.lean: the terms claims use: the relations of a valid engine (R30 to R36), the form of ACC while a
message is open and how the two paths' registers correspond (R38), the invariant of reachable states (R43), the
accesses that are never refused (R52, R53), and the events of one message with what may stand between them (R165). -/

namespace Sys2Proof.Machine

/-- What holds of the engine whenever CFG_VALID = 1: the invariant of R32, the relations of R33 and R34, the variant of
R105 and the entries of R36. -/
structure Engine.Valid (e : Engine) : Prop where
  width_pos : 1 ≤ e.w
  width_le : e.w ≤ 32
  poly_lt : e.poly.toNat < 2 ^ e.w
  xorIn_lt : e.xorIn.toNat < 2 ^ e.w
  xorOut_lt : e.xorOut.toNat < 2 ^ e.w
  mask_eq : e.mask.toNat = 2 ^ e.w - 1
  msbMask_eq : e.msbMask.toNat = 2 ^ (e.w - 1)
  crcShift_eq : e.cs = 8 - e.w
  reflectedXorIn_eq : e.reflectedXorIn = mirror e.xorIn e.w
  shiftedXorIn_eq : e.shiftedXorIn.toNat = e.xorIn.toNat * 2 ^ e.cs
  variant_eq : e.variant = variantOf e.w e.xorIn e.xorOut e.reflect
  table_eq : ∀ i < 256, tableRead e.table i = tableEntry e.w e.poly e.reflect i

/-- The form of ACC on a path under an engine: the table of R38. -/
def AccForm (p : Path) (e : Engine) (acc : Word) : Prop :=
  match p, e.variant with
  | .reference, _ => acc.toNat < 2 ^ e.w
  | .table, .reflected => acc.toNat < 2 ^ e.w
  | .table, .nonreflected => acc.toNat < 2 ^ (e.w + e.cs) ∧ 2 ^ e.cs ∣ acc.toNat
  | .table, .fast => acc.toNat < 2 ^ 8
  | .table, .none => False

/-- The register of the table path holds the register of the reference path in the form of its variant (R38, 95 section
1.3): mirrored over WIDTH, shifted left by CRC_SHIFT, or the same. VARIANT = NONE has no form. -/
def SameRegister (e : Engine) (table reference : Word) : Prop :=
  match e.variant with
  | .reflected => table = mirror reference e.w
  | .nonreflected => table = reference <<< e.cs
  | .fast => table = reference
  | .none => False

/-- The invariant of every state a run reaches (R43, with R38, R42 and R202): an engine in force is valid; without one
the configuration is that of reset, whatever TABLE holds; an open message has an engine and an ACC of its form. -/
structure Inv (s : State) : Prop where
  configured : s.cfgValid = true → s.engine.Valid
  unconfigured : s.cfgValid = false →
    s.engine = { Engine.reset with table := s.engine.table } ∧ s.msgOpen = false ∧ s.path = .table ∧ s.acc = 0#32
  opened : s.msgOpen = true → s.cfgValid = true ∧ AccForm s.path s.engine s.acc

/-- Two cores inside messages side by side: states of the invariant with the same engine, a message open in each, the
first on the table path and the second on the reference path, and their registers in correspondence (R38, R43). -/
structure SideBySide (s r : State) : Prop where
  table_inv : Inv s
  reference_inv : Inv r
  engine_eq : s.engine = r.engine
  table_open : s.msgOpen = true
  reference_open : r.msgOpen = true
  table_path : s.path = .table
  reference_path : r.path = .reference
  same_register : SameRegister s.engine s.acc r.acc

/-- An event the model never refuses: an aligned 32-bit access to an assigned register, or reset (R51 to R53, R201). -/
def HostEvent.supported : HostEvent → Bool
  | .read off width => isWordAccess off width && (regAt off).isSome
  | .write off width _ => isWordAccess off width && (regAt off).isSome
  | .reset => true

/-- The command a message opens with, by path (R165). -/
def initInstr : Path → Instr
  | .table => .initT
  | .reference => .initN

/-- The command word a host event writes to CMD, if it is such a write (R55). -/
def HostEvent.cmdWord? : HostEvent → Option Word
  | .write off .word v => if off = Reg.cmd.offset then some v else none
  | _ => none

/-- The host event is the CMD write of this command (R55, R77). -/
def HostEvent.runs (ev : HostEvent) (i : Instr) : Prop := ∃ v, ev.cmdWord? = some v ∧ decode v = .command i

/-- The next step of `s` runs this command. -/
def State.runs (s : State) (i : Instr) : Prop := ∃ ev rest, s.pending = ev :: rest ∧ ev.runs i

/-- The next step of `s` is a reset (R200). -/
def State.resets (s : State) : Prop := ∃ rest, s.pending = .reset :: rest

/-- `k` steps of the machine behind the host's interface. -/
def run (k : Nat) (s : State) : Host.Outcome State Fault Refusal := Sys2Proof.core.run k s

/-- A state some run from reset reaches, whatever the host sends (R43). -/
def Reachable (t : State) : Prop := ∃ evs k, run k (State.reset.post evs) = .next t

/-- What may stand between the commands of a message (R165): a host write to ARG0, ARG1 or ARG2, or a CMD write whose
word does not decode to INIT, BYTE or FINAL: MIRROR, TBLRD, CONFIGURE or an illegal word. -/
def HostEvent.quiet : HostEvent → Bool
  | .write off .word v =>
    if off = Reg.cmd.offset then
      match decode v with
      | .command .initT | .command .initN | .command (.byte _) | .command .final => false
      | .command (.configure _ _) | .command (.mirror _) | .command (.tblrd _) | .illegal _ => true
    else decide (off = Reg.arg0.offset) || decide (off = Reg.arg1.offset) || decide (off = Reg.arg2.offset)
  | _ => false

/-- The byte a host event feeds, if it is the CMD write of a BYTE command (R59, R163). -/
def HostEvent.fed (ev : HostEvent) : Option Byte :=
  match ev.cmdWord? with
  | some v =>
    match decode v with
    | .command (.byte b) => some b
    | _ => none
  | none => none

/-- The events between INIT and FINAL of a message: BYTE commands and quiet events (R165). -/
def messageBody (body : List HostEvent) : Prop := ∀ ev ∈ body, ev.quiet = true ∨ ev.fed.isSome = true

/-- The bytes the events of a message feed, in the order of the host's writes (R59). -/
def fedBytes (body : List HostEvent) : List Byte := body.filterMap HostEvent.fed

end Sys2Proof.Machine
end

