-- ==== Sys2Proof/Certificates/Slice0/Obligations.lean ====
section
/-! DEFINITION. Certificates/Slice0/Obligations.lean: the statements for the provers, in the order of the spec's files.
A statement about a next state of a single command is about `exec` or `execute`; one about what the host sees is about
`step`. `s.setBus rest none` is `s` after its next access has left the queue. -/

open Sys2Proof Sys2Proof.Machine

/-! ### State: 10_state.md -/

/-- R21: the core reads ARG0 to ARG2 and never writes them; CONFIGURE takes poly, xor_in and xor_out from them, MIRROR
takes its value from ARG0, no other command reads them; what the host writes it reads back. -/
def Obligations.OperandRegistersBelongToTheHost : Prop :=
  (∀ (cmd : Word) (s t : State), execute cmd s = .next t → t.arg0 = s.arg0 ∧ t.arg1 = s.arg1 ∧ t.arg2 = s.arg2) ∧
  (∀ (w : Nat) (r : Bool) (s t : State), exec (.configure w r) s = .next t → t.err = .ok →
    t.engine.poly.toNat = s.arg0.toNat % 2 ^ w ∧ t.engine.xorIn.toNat = s.arg1.toNat % 2 ^ w ∧
      t.engine.xorOut.toNat = s.arg2.toNat % 2 ^ w) ∧
  (∀ (n : Nat) (s : State) (a1 a2 : Word), ∃ t, exec (.mirror n) s = .next t ∧
    (t.err = .ok → t.result = mirror s.arg0 n) ∧
    exec (.mirror n) { s with arg1 := a1, arg2 := a2 } = .next { t with arg1 := a1, arg2 := a2 }) ∧
  (∀ (i : Instr) (s : State) (a0 a1 a2 : Word), (∀ w r, i ≠ .configure w r) → (∀ n, i ≠ .mirror n) →
    ∃ t, exec i s = .next t ∧
      exec i { s with arg0 := a0, arg1 := a1, arg2 := a2 } = .next { t with arg0 := a0, arg1 := a1, arg2 := a2 }) ∧
  (∀ (s : State) (off : BitVec 8) (v : Word) (rest : List HostEvent), off ∈ [0x08#8, 0x0C#8, 0x10#8] →
    s.pending = .write off .word v :: .read off .word :: rest →
    ∃ t, run 2 s = .next t ∧ t.readData = some v)

/-- R22: a successful FINAL, MIRROR or TBLRD writes RESULT; nothing else (but reset) changes it, no host write and no
command that raises an error; and FINAL's value is below 2^WIDTH. -/
def Obligations.ResultWrittenOnlyBySuccess : Prop :=
  (∀ s t : State, step s = .next t → t.result ≠ s.result →
    s.resets ∨ (t.err = .ok ∧ (s.runs .final ∨ (∃ n, s.runs (.mirror n)) ∨ ∃ i, s.runs (.tblrd i)))) ∧
  (∀ (cmd : Word) (s t : State), execute cmd s = .next t → t.err ≠ .ok → t.result = s.result) ∧
  (∀ s : State, Inv s → s.msgOpen = true →
    ∃ t, exec .final s = .next t ∧ t.err = .ok ∧ t.result = finOn s.path s.engine s.acc ∧
      t.result.toNat < 2 ^ s.engine.w) ∧
  (∀ (s : State), ∀ n ≤ 32, ∃ t, exec (.mirror n) s = .next t ∧ t.err = .ok ∧ t.result = mirror s.arg0 n) ∧
  (∀ s : State, s.cfgValid = true → ∀ i < 256,
    ∃ t, exec (.tblrd i) s = .next t ∧ t.err = .ok ∧ s.engine.table[i]? = some t.result)

/-- R24: the fields of STATUS and their codes, reserved bits 0, all 0 after reset, host writes ignored. -/
def Obligations.StatusWordLayout : Prop :=
  (∀ s : State,
    (statusWord s).extractLsb' 0 1 = (if s.cfgValid then 1#1 else 0#1) ∧
    (statusWord s).extractLsb' 1 1 = (if s.msgOpen then 1#1 else 0#1) ∧
    (statusWord s).extractLsb' 2 1 = (if s.path = .reference then 1#1 else 0#1) ∧
    (statusWord s).extractLsb' 3 1 = 0#1 ∧
    (statusWord s).extractLsb' 4 2 =
      (match s.engine.variant with | .none => 0#2 | .reflected => 1#2 | .nonreflected => 2#2 | .fast => 3#2) ∧
    (statusWord s).extractLsb' 6 2 = 0#2 ∧
    (statusWord s).extractLsb' 8 4 =
      (match s.err with
        | .ok => 0#4 | .invalidWidth => 1#4 | .illegalCommand => 2#4 | .invalidOperand => 3#4
        | .notConfigured => 4#4 | .noMessage => 5#4 | .messageOpen => 6#4) ∧
    (statusWord s).extractLsb' 12 20 = 0#20) ∧
  statusWord State.reset = 0#32 ∧
  (∀ (s : State) (v : Word) (rest : List HostEvent), s.pending = .write 0x04#8 .word v :: rest →
    step s = .next (s.setBus rest none))

/-- R25: CFG_VALID is 0 after reset, a successful CONFIGURE sets it, only reset clears it; without it INIT and TBLRD
raise NOT_CONFIGURED; with it, in a state a run from reset reaches, the configuration, the derived constants and all of
TABLE are those that one CONFIGURE of the run built. -/
def Obligations.OnlyResetClearsCfgValid : Prop :=
  State.reset.cfgValid = false ∧
  (∀ (w : Nat) (r : Bool) (s t : State), exec (.configure w r) s = .next t → t.err = .ok → t.cfgValid = true) ∧
  (∀ s t : State, step s = .next t → t.cfgValid ≠ s.cfgValid →
    (t.cfgValid = true ∧ t.err = .ok ∧ ∃ w r, s.runs (.configure w r)) ∨ (t.cfgValid = false ∧ s.resets)) ∧
  (∀ s : State, s.cfgValid = false → exec .initT s = .next (s.setErr .notConfigured) ∧
    exec .initN s = .next (s.setErr .notConfigured) ∧ ∀ i, exec (.tblrd i) s = .next (s.setErr .notConfigured)) ∧
  (∀ (evs : List HostEvent) (k : Nat) (s : State), run k (State.reset.post evs) = .next s → s.cfgValid = true →
    ∃ (j w : Nat) (r : Bool) (u v : State), j < k ∧ run j (State.reset.post evs) = .next u ∧ u.runs (.configure w r) ∧
      step u = .next v ∧ v.err = .ok ∧ s.engine = configuredEngine w r u)

/-- R26: MSG_OPEN is 0 after reset, a successful INIT sets it, a successful FINAL clears it, nothing else (but reset)
writes it. -/
def Obligations.MsgOpenFollowsInitAndFinal : Prop :=
  State.reset.msgOpen = false ∧
  (∀ s t : State, exec .initT s = .next t ∨ exec .initN s = .next t → t.err = .ok → t.msgOpen = true) ∧
  (∀ s t : State, exec .final s = .next t → t.err = .ok → t.msgOpen = false) ∧
  (∀ s t : State, step s = .next t → t.msgOpen ≠ s.msgOpen →
    (t.msgOpen = true ∧ t.err = .ok ∧ (s.runs .initT ∨ s.runs .initN)) ∨
    (t.msgOpen = false ∧ ((t.err = .ok ∧ s.runs .final) ∨ s.resets)))

/-- R27: PATH is 0 after reset, a successful INIT writes it with its F bit, FINAL keeps it, and BYTE and FINAL choose
the path by it. -/
def Obligations.PathFollowsTheLastInit : Prop :=
  State.reset.path = .table ∧
  (∀ s t : State, exec .initT s = .next t → t.err = .ok → t.path = .table) ∧
  (∀ s t : State, exec .initN s = .next t → t.err = .ok → t.path = .reference) ∧
  (∀ s t : State, step s = .next t → t.path ≠ s.path →
    s.resets ∨ (t.err = .ok ∧ ((s.runs .initT ∧ t.path = .table) ∨ (s.runs .initN ∧ t.path = .reference)))) ∧
  (∀ (s : State) (b : Byte), s.msgOpen = true → ∃ t, exec (.byte b) s = .next t ∧
    t.acc = (if s.path = .reference then stepRef s.engine s.acc b else stepTable s.engine s.acc b)) ∧
  (∀ s : State, s.msgOpen = true → ∃ t, exec .final s = .next t ∧
    t.result = (if s.path = .reference then finRef s.engine s.acc else finTable s.engine s.acc))

/-- R28: VARIANT is NONE after reset; a successful CONFIGURE writes it by its encoding and nothing else (but reset)
does; it is never NONE in an invariant state with CFG_VALID = 1. -/
def Obligations.VariantWrittenOnlyByConfigure : Prop :=
  State.reset.engine.variant = .none ∧
  (∀ (w : Nat) (r : Bool) (s t : State), exec (.configure w r) s = .next t → t.err = .ok →
    (t.engine.variant = .reflected ↔ r = true) ∧
    (t.engine.variant = .fast ↔
      r = false ∧ w = 8 ∧ s.arg1.toNat % 2 ^ 8 = 0 ∧ s.arg2.toNat % 2 ^ 8 = 0) ∧
    t.engine.variant ≠ .none) ∧
  (∀ s t : State, step s = .next t → t.engine.variant ≠ s.engine.variant →
    s.resets ∨ (t.err = .ok ∧ ∃ w r, s.runs (.configure w r))) ∧
  Variant.none.code = 0#2 ∧ Variant.reflected.code = 1#2 ∧ Variant.nonreflected.code = 2#2 ∧
    Variant.fast.code = 3#2 ∧
  (∀ s : State, Inv s → s.cfgValid = true → s.engine.variant ≠ .none)

/-- R29 and R183: ERR is 0 after reset; every command writes it, 0 on success; only a CMD write or reset changes it; its
old value influences no command. -/
def Obligations.ErrHoldsTheLastOutcome : Prop :=
  State.reset.err = .ok ∧ Err.ok.code = 0#4 ∧
  (∀ (cmd : Word) (s t : State), execute cmd s = .next t → t.err = .ok ∨ t = s.setErr t.err) ∧
  (∀ s t : State, step s = .next t → t.err ≠ s.err →
    s.resets ∨ ∃ v rest, s.pending = .write 0x00#8 .word v :: rest) ∧
  (∀ (cmd : Word) (s : State) (e : Err), execute cmd (s.setErr e) = execute cmd s)

/-- R31 and R107: a step leaves the engine as it was, or a successful CONFIGURE replaces all of it at once; a CONFIGURE
that raises an error leaves it and CFG_VALID as they were. (Reset discards the engine, R202; TABLE after it is
unspecified, R42, and not spoken of.) -/
def Obligations.EngineReplacedWholeOrNotAtAll : Prop :=
  (∀ s t : State, step s = .next t →
    t.engine = s.engine ∨ (s.resets ∧ t.engine = { Engine.reset with table := t.engine.table }) ∨
    ∃ w r, s.runs (.configure w r) ∧ t.err = .ok ∧ t.engine = configuredEngine w r s) ∧
  (∀ (w : Nat) (r : Bool) (s t : State), exec (.configure w r) s = .next t → t.err ≠ .ok →
    t.engine = s.engine ∧ t.cfgValid = s.cfgValid)

/-- R35: the fields of CFG, reserved bits 0, WIDTH 1 to 32 when CFG_VALID = 1; host writes to CFG and to the registers of
the engine are ignored; and in an invariant state none of these registers has a bit at or above WIDTH, SHIFTED_XOR_IN
none at or above WIDTH + CRC_SHIFT. -/
def Obligations.CfgWordLayout : Prop :=
  (∀ s : State,
    (cfgWord s).extractLsb' 0 8 = s.engine.width.setWidth 8 ∧
    (cfgWord s).extractLsb' 8 1 = (if s.engine.reflect then 1#1 else 0#1) ∧
    (cfgWord s).extractLsb' 9 7 = 0#7 ∧
    (cfgWord s).extractLsb' 16 3 = s.engine.crcShift ∧
    (cfgWord s).extractLsb' 19 13 = 0#13) ∧
  cfgWord State.reset = 0#32 ∧
  (∀ (s : State) (off : BitVec 8) (v : Word) (rest : List HostEvent),
    off ∈ [0x1C#8, 0x20#8, 0x24#8, 0x28#8, 0x2C#8, 0x30#8, 0x34#8, 0x38#8] →
    s.pending = .write off .word v :: rest → step s = .next (s.setBus rest none)) ∧
  (∀ s : State, Inv s →
    (s.cfgValid = true → 1 ≤ s.engine.w ∧ s.engine.w ≤ 32) ∧
    s.engine.poly.toNat < 2 ^ s.engine.w ∧ s.engine.xorIn.toNat < 2 ^ s.engine.w ∧
    s.engine.xorOut.toNat < 2 ^ s.engine.w ∧ s.engine.mask.toNat < 2 ^ s.engine.w ∧
    s.engine.msbMask.toNat < 2 ^ s.engine.w ∧ s.engine.reflectedXorIn.toNat < 2 ^ s.engine.w ∧
    s.engine.shiftedXorIn.toNat < 2 ^ (s.engine.w + s.engine.cs))

/-- R39: only INIT and BYTE (and reset) change ACC; FINAL leaves the final register in it; INIT overwrites it whatever it
held; a host read sees it, in the form of its path while a message is open. -/
def Obligations.AccWrittenOnlyByInitAndByte : Prop :=
  (∀ s t : State, step s = .next t → t.acc ≠ s.acc →
    s.resets ∨ s.runs .initT ∨ s.runs .initN ∨ ∃ b, s.runs (.byte b)) ∧
  (∀ s t : State, exec .final s = .next t → t.acc = s.acc) ∧
  (∀ (s : State) (a : Word), s.cfgValid = true →
    exec .initT { s with acc := a } = exec .initT s ∧ exec .initN { s with acc := a } = exec .initN s) ∧
  (∀ (s : State) (rest : List HostEvent), s.pending = .read 0x18#8 .word :: rest →
    step s = .next (s.setBus rest (some s.acc))) ∧
  (∀ s : State, Inv s → s.msgOpen = true → AccForm s.path s.engine s.acc)

/-- R42: the value of every piece of state after reset but TABLE, and that no observation depends on what TABLE holds
while CFG_VALID = 0: a step from two such states that differ in TABLE alone ends alike, and the difference is in TABLE
alone until the first successful CONFIGURE (or reset) removes it. -/
def Obligations.ResetValuesAndUnobservableTable : Prop :=
  (∀ r : Reg, readReg r State.reset = 0#32) ∧
  (State.reset.cfgValid = false ∧ State.reset.msgOpen = false ∧ State.reset.path = .table ∧ State.reset.err = .ok ∧
    State.reset.engine.variant = .none ∧ State.reset.engine.width = 0#6 ∧ State.reset.engine.reflect = false ∧
    State.reset.engine.crcShift = 0#3) ∧
  (∀ (s : State) (tab : Vector Word 256), Inv s → s.cfgValid = false →
    (∀ r, step s = .refused r → step { s with engine := { s.engine with table := tab } } = .refused r) ∧
    (∀ t, step s = .next t →
      step { s with engine := { s.engine with table := tab } } = .next t ∨
      (t.cfgValid = false ∧ step { s with engine := { s.engine with table := tab } } =
        .next { t with engine := { t.engine with table := tab } })))

/-- The invariant holds after reset (R32, R42, R43). -/
def Obligations.ResetStateIsInvariant : Prop := Inv State.reset

/-- Every step from an invariant state that answers a next state answers an invariant state (R31, R38, R43). -/
def Obligations.EveryStepKeepsTheInvariant : Prop := ∀ s t : State, Inv s → step s = .next t → Inv t

/-- R32, R34 and R43, for every state a run from reset reaches, whatever the host sends. -/
def Obligations.ReachableStatesMeetTheRelations : Prop :=
  ∀ s : State, Reachable s →
    (s.msgOpen = true → s.cfgValid = true) ∧
    (s.cfgValid = true →
      s.engine.variant ≠ .none ∧ 1 ≤ s.engine.w ∧ s.engine.w ≤ 32 ∧
      s.engine.poly.toNat < 2 ^ s.engine.w ∧ s.engine.xorIn.toNat < 2 ^ s.engine.w ∧
      s.engine.xorOut.toNat < 2 ^ s.engine.w ∧
      s.engine.msbMask.toNat = 2 ^ (s.engine.w - 1) ∧ s.engine.mask.toNat = 2 ^ s.engine.w - 1 ∧
      s.engine.mask.toNat = 2 * s.engine.msbMask.toNat - 1 ∧
      s.engine.cs ≤ 7 ∧ (s.engine.cs = 0 ↔ 8 ≤ s.engine.w) ∧
      s.engine.w + s.engine.cs = max 8 s.engine.w ∧ 8 ≤ s.engine.w + s.engine.cs ∧ s.engine.w + s.engine.cs ≤ 32 ∧
      s.engine.reflectedXorIn.toNat < 2 ^ s.engine.w ∧
      s.engine.shiftedXorIn.toNat < 2 ^ (s.engine.w + s.engine.cs) ∧
      2 ^ s.engine.cs ∣ s.engine.shiftedXorIn.toNat) ∧
    (s.cfgValid = false →
      s.engine.w = 0 ∧ s.engine.reflect = false ∧ s.engine.poly = 0#32 ∧ s.engine.xorIn = 0#32 ∧
      s.engine.xorOut = 0#32)

/-! ### Host accesses: 20_memory.md, 70_reset_and_hazards.md -/

/-- R51: what a host read returns at each assigned offset. -/
def Obligations.HostReadsReturnTheRegisterMap : Prop :=
  ∀ (s : State) (rest : List HostEvent),
    ∀ p ∈ [(0x00#8, 0#32), (0x04#8, statusWord s), (0x08#8, s.arg0), (0x0C#8, s.arg1), (0x10#8, s.arg2),
      (0x14#8, s.result), (0x18#8, s.acc), (0x1C#8, cfgWord s), (0x20#8, s.engine.poly), (0x24#8, s.engine.xorIn),
      (0x28#8, s.engine.xorOut), (0x2C#8, s.engine.mask), (0x30#8, s.engine.msbMask),
      (0x34#8, s.engine.reflectedXorIn), (0x38#8, s.engine.shiftedXorIn)],
    s.pending = .read p.1 .word :: rest → step s = .next (s.setBus rest (some p.2))

/-- R52 and R53: a narrow or misaligned access is refused as such, a 32-bit one at 0x3C to 0xFC as reserved. Where both
rules apply, the name is that of R52: the model's choice, log entry 10 (DESIGN CHOICE). -/
def Obligations.UnsupportedAccessesAreRefused : Prop :=
  ∀ (s : State) (off : BitVec 8) (width : AccessWidth) (v : Word) (ev : HostEvent) (rest : List HostEvent),
    ev = .read off width ∨ ev = .write off width v → s.pending = ev :: rest →
    (width ≠ .word ∨ off.toNat % 4 ≠ 0 → step s = .refused .nonWordAccess) ∧
    (width = .word → off.toNat % 4 = 0 → 0x3C ≤ off.toNat → step s = .refused .reservedOffset)

/-- R54 and R57: a host write stores into ARG0 to ARG2 and doing it twice changes no more; a write to another assigned
register than CMD is ignored; a CMD write is not idempotent: from some state of the invariant, the second of two equal
CMD writes of a BYTE word, performed by the second of two steps, changes ACC again. That it can, where R57 says that it
does, is the model's reading, log entry 11 (DEDUCED). -/
def Obligations.HostWritesByKindOfOffset : Prop :=
  (∀ (s : State) (v : Word) (rest : List HostEvent),
    (s.pending = .write 0x08#8 .word v :: rest → step s = .next { s.setBus rest none with arg0 := v }) ∧
    (s.pending = .write 0x0C#8 .word v :: rest → step s = .next { s.setBus rest none with arg1 := v }) ∧
    (s.pending = .write 0x10#8 .word v :: rest → step s = .next { s.setBus rest none with arg2 := v })) ∧
  (∀ (s t : State) (off : BitVec 8) (v : Word) (rest : List HostEvent), off ∈ [0x08#8, 0x0C#8, 0x10#8] →
    s.pending = .write off .word v :: .write off .word v :: rest → step s = .next t →
    step t = .next (t.setBus rest none)) ∧
  (∀ (s : State) (off : BitVec 8) (v : Word) (rest : List HostEvent),
    off ∈ [0x04#8, 0x14#8, 0x18#8, 0x1C#8, 0x20#8, 0x24#8, 0x28#8, 0x2C#8, 0x30#8, 0x34#8, 0x38#8] →
    s.pending = .write off .word v :: rest → step s = .next (s.setBus rest none)) ∧
  (∃ (s t u : State) (v : Word) (b : Byte) (rest : List HostEvent), Inv s ∧ decode v = .command (.byte b) ∧
    s.pending = .write 0x00#8 .word v :: .write 0x00#8 .word v :: rest ∧ step s = .next t ∧ step t = .next u ∧
    t.err = .ok ∧ u.err = .ok ∧ u.acc ≠ t.acc)

/-- R55: a CMD write executes its word in one step; a CMD read returns 0 and has no effect. -/
def Obligations.CmdWriteExecutesCmdReadReturnsZero : Prop :=
  ∀ (s : State) (v : Word) (rest : List HostEvent),
    (s.pending = .write 0x00#8 .word v :: rest → step s = execute v (s.setBus rest none)) ∧
    (s.pending = .read 0x00#8 .word :: rest → step s = .next (s.setBus rest (some 0#32)))

/-- R56: a read that answers returns the register's current value, changes no state but the value on the bus, and may be
repeated with the same answer. -/
def Obligations.HostReadsHaveNoSideEffect : Prop :=
  ∀ (s t : State) (off : BitVec 8) (width : AccessWidth) (rest : List HostEvent),
    s.pending = .read off width :: rest → step s = .next t →
    t = s.setBus rest t.readData ∧ (∃ r, regAt off = some r ∧ t.readData = some (readReg r s)) ∧
    ∀ rest', rest = .read off width :: rest' → step t = .next (t.setBus rest' t.readData)

/-- R62, R189 and R204, and 92 D37 for reset: every access to an assigned offset, and reset, completes in one step,
whatever the state, and takes its own event off the accesses still to come; a reset leaves nothing on the bus. That the
accesses behind a reset are kept is the model's choice, log entry 4 (DESIGN CHOICE). -/
def Obligations.SupportedAccessesCompleteInOneStep : Prop :=
  ∀ (s : State) (ev : HostEvent) (rest : List HostEvent), s.pending = ev :: rest →
    (ev = .reset ∨ ∃ off : BitVec 8, off.toNat % 4 = 0 ∧ off.toNat ≤ 0x38 ∧
      (ev = .read off .word ∨ ∃ v, ev = .write off .word v)) →
    ∃ t, step s = .next t ∧ t.pending = rest ∧ (ev = .reset → t.readData = none)

/-- R63, R193 and R205: the accesses are performed one at a time in their order; no step depends on a later access; a
read after a CMD write sees that command's effect; with no access to perform the core holds its state. That a run through
a reset loses no access is the model's choice, log entry 4 (DESIGN CHOICE). -/
def Obligations.AccessesActInOrder : Prop :=
  (∀ s : State, s.pending = [] → step s = .next s) ∧
  (∀ (s t : State) (k : Nat), run k s = .next t → t.pending = s.pending.drop k) ∧
  (∀ (s : State) (later : List HostEvent) (k : Nat), k ≤ s.pending.length →
    (∀ t, run k s = .next t → run k (s.post later) = .next (t.post later)) ∧
    (∀ r, run k s = .refused r → run k (s.post later) = .refused r)) ∧
  (∀ (s t : State) (v : Word) (r : Reg) (rest : List HostEvent),
    s.pending = .write 0x00#8 .word v :: .read r.offset .word :: rest → run 2 s = .next t →
    ∃ u, execute v (s.setBus (.read r.offset .word :: rest) none) = .next u ∧ t.readData = some (readReg r u))

/-- R202, with the reset values of R200: a reset leads from every state to the state of R42, an open message and the
engine gone (TABLE, which the spec leaves unspecified, is not spoken of, nor are the model's own two fields); from a
state without an engine no INIT and no TBLRD succeeds before a CONFIGURE has; and only a reset makes CFG_VALID 0
again. -/
def Obligations.ResetDiscardsMessageAndEngine : Prop :=
  (∀ (s : State) (rest : List HostEvent), s.pending = .reset :: rest →
    ∃ t, step s = .next t ∧ t = { State.reset with
      engine := { Engine.reset with table := t.engine.table }, pending := t.pending, readData := t.readData }) ∧
  (∀ (s t t' : State) (k : Nat) (i : Instr), s.cfgValid = false → run k s = .next t →
    (i = .initT ∨ i = .initN ∨ ∃ n, i = .tblrd n) → t.runs i → step t = .next t' → t'.err = .ok →
    ∃ (j w : Nat) (r : Bool) (u v : State), j < k ∧ run j s = .next u ∧ u.runs (.configure w r) ∧ step u = .next v ∧
      v.err = .ok) ∧
  (∀ s t : State, step s = .next t → s.cfgValid = true → t.cfgValid = false → s.resets)

/-- R66, 92 D36: offset `off` is reached from the platform address POLYCRC_BASE + `off`, and from no other address. That
no other reaches it is the model's choice, log entry 5 (DESIGN CHOICE). -/
def Obligations.PlatformWindowIsOneToOne : Prop :=
  (∀ off : BitVec 8, platformOffset (Config.polycrcBase + off.toNat) = some off) ∧
  (∀ (a b : Nat) (off : BitVec 8), platformOffset a = some off → platformOffset b = some off → a = b)

/-! ### Encoding and dispatch: 30_encoding.md -/

/-- Decoding the word of any well-formed command gives the command back, for every operand value. -/
def Obligations.EncodeThenDecodeIsIdentity : Prop := ∀ i : Instr, i.wf = true → decode (encode i) = .command i

/-- A word that decodes is the word of what it decodes to: no bit of it is ignored (R75, R77). -/
def Obligations.DecodedWordEncodesBack : Prop :=
  ∀ (cmd : Word) (i : Instr), decode cmd = .command i → i.wf = true ∧ encode i = cmd

/-- R74: a word decodes to a command of a row exactly when that row covers it, and at most one row does. -/
def Obligations.OpcodeRowsDecideDecoding : Prop :=
  ∀ cmd : Word,
    (∀ i, decode cmd = .command i → (opcodeTable.filter (fun r => r.covers cmd)).map OpcodeRow.mnemonic = [i.mnemonic]) ∧
    (∀ d, decode cmd = .illegal d → opcodeTable.filter (fun r => r.covers cmd) = [])

/-- R75 and R76: the words that raise ILLEGAL_COMMAND and change nothing else are exactly those with RSV ≠ 0, an
unassigned OPCODE, F = 1 for BYTE, FINAL, MIRROR and TBLRD, or A ≠ 0 for INIT and FINAL. -/
def Obligations.IllegalWordsExactly : Prop :=
  ∀ (cmd : Word) (s : State),
    let op := (cmd.extractLsb' 0 8).toNat
    let illegal := cmd.extractLsb' 17 15 ≠ 0#15 ∨ op = 0x00 ∨ 0x07 ≤ op ∨
      (0x03 ≤ op ∧ op ≤ 0x06 ∧ cmd.getLsbD 16 = true) ∨ ((op = 0x02 ∨ op = 0x04) ∧ cmd.extractLsb' 8 8 ≠ 0#8)
    (illegal → execute cmd s = .next { s with err := .illegalCommand }) ∧
    (¬ illegal → ∃ i, decode cmd = .command i ∧ execute cmd s = exec i s)

/-- Words of the spec, one of each row at least, and what they decode to (R79, R110, 95 sections 2 to 7); and the command
word and variant of each catalog model (R110). -/
def Obligations.SpecWordsDecode : Prop :=
  decode 0x00012001#32 = .command (.configure 32 true) ∧ decode 0x00000801#32 = .command (.configure 8 false) ∧
  decode 0x00000002#32 = .command .initT ∧ decode 0x00010002#32 = .command .initN ∧
  decode 0x0000FF03#32 = .command (.byte 0xFF#8) ∧ decode 0x00000004#32 = .command .final ∧
  decode 0x00002105#32 = .command (.mirror 33) ∧ decode 0x00008006#32 = .command (.tblrd 128) ∧
  decode 0x00020001#32 = .illegal .reservedNotZero ∧ decode 0x00000007#32 = .illegal .unassignedOpcode ∧
  decode 0x00010003#32 = .illegal .flagNotZero ∧ decode 0x00000102#32 = .illegal .operandNotZero ∧
  catalog.map (fun m => (m.name, encode (.configure m.width m.reflect), m.engine.variant)) =
    [("crc1", 0x00000101#32, .nonreflected), ("crc6", 0x00000601#32, .nonreflected), ("crc8", 0x00000801#32, .fast),
     ("crc10", 0x00000A01#32, .nonreflected), ("crc16", 0x00011001#32, .reflected),
     ("crc24", 0x00001801#32, .nonreflected), ("crc32", 0x00012001#32, .reflected),
     ("crc32c", 0x00012001#32, .reflected)]

/-- R79: the words of the assembler's commands as sums. -/
def Obligations.AssemblerWordsAreSums : Prop :=
  (∀ (w : Nat) (r : Bool), w < 256 →
    (encode (.configure w r)).toNat = 0x01 + w * 2 ^ 8 + (if r then 1 else 0) * 2 ^ 16) ∧
  (encode .initT).toNat = 0x00000002 ∧ (encode .initN).toNat = 0x00010002 ∧
  (∀ b : Byte, (encode (.byte b)).toNat = 0x03 + b.toNat * 2 ^ 8) ∧
  (encode .final).toNat = 0x00000004 ∧
  (∀ n < 256, (encode (.mirror n)).toNat = 0x05 + n * 2 ^ 8) ∧
  (∀ i < 256, (encode (.tblrd i)).toNat = 0x06 + i * 2 ^ 8)

/-- R80: when the host writes a word to CMD that decodes to a command, the step is `exec` of that (well-formed) command
on the state with the access taken off the queue. And the word `withFetchWord` places is the one the very next step
runs (log entry 4). -/
def Obligations.StepRunsTheDecodedCommand : Prop :=
  (∀ (s : State) (v : Word) (i : Instr) (rest : List HostEvent),
    s.pending = .write 0x00#8 .word v :: rest → decode v = .command i →
    i.wf = true ∧ step s = exec i (s.setBus rest none)) ∧
  (∀ (s : State) (w : Nat) (i : Instr), decodeTableWord 32 w = some i →
    step (s.withFetchWord 32 w) = exec i (s.setBus s.pending none))

/-- R79 and R203: the four accesses of `cfgp W, P, XI, XO, R`, from any state with no open message and for a legal
width, leave the engine of those parameters in force with ERR = 0. -/
def Obligations.CfgpConfiguresTheCore : Prop :=
  ∀ w p xi xo r : Nat, 1 ≤ w → w ≤ 32 → p < 2 ^ 32 → xi < 2 ^ 32 → xo < 2 ^ 32 → r ≤ 1 →
    ∃ evs, assemble (.cfgp w p xi xo r) = some evs ∧ evs.length = 4 ∧
      ∀ (s : State) (rest : List HostEvent), s.pending = evs ++ rest → s.msgOpen = false →
        ∃ t, run 4 s = .next t ∧ t.pending = rest ∧ t.err = .ok ∧ t.cfgValid = true ∧ t.engine.Valid ∧
          t.engine.w = w ∧ (t.engine.reflect = true ↔ r = 1) ∧ t.engine.poly.toNat = p % 2 ^ w ∧
          t.engine.xorIn.toNat = xi % 2 ^ w ∧ t.engine.xorOut.toNat = xo % 2 ^ w ∧
          t.arg0.toNat = p ∧ t.arg1.toNat = xi ∧ t.arg2.toNat = xo

/-! ### BitMirror: 40_bitmirror.md -/

/-- R90: the result is below 2^n, its bit n-1-k is bit k of the value, and it is the stated sum. -/
def Obligations.MirrorReversesTheLowBits : Prop :=
  ∀ (v : Word) (n : Nat), n ≤ 32 →
    (mirror v n).toNat < 2 ^ n ∧
    (∀ k < n, (mirror v n).getLsbD (n - 1 - k) = v.getLsbD k) ∧
    (mirror v n).toNat = ((List.range n).map (fun k => (if v.getLsbD k then 1 else 0) * 2 ^ (n - 1 - k))).sum

/-- R91 and R92: the properties of mirror, and that it undoes itself on the low bits. -/
def Obligations.MirrorPropertiesAndInvolution : Prop :=
  (∀ v : Word, mirror v 0 = 0#32) ∧
  (∀ (v : Word) (n : Nat), n ≤ 32 →
    mirror v n = mirror (v &&& maskOf n) n ∧ (mirror v n).toNat < 2 ^ n ∧ mirror (maskOf n) n = maskOf n ∧
    (1 ≤ n → (mirror 1#32 n).toNat = 2 ^ (n - 1)) ∧
    mirror (mirror v n) n = v &&& maskOf n ∧ (v.toNat < 2 ^ n → mirror (mirror v n) n = v))

/-- R93: MIRROR with n up to 32 writes the mirrored ARG0 into RESULT and clears ERR, and nothing else changes; above 32
it raises INVALID_OPERAND. Bits of ARG0 at and above n are ignored. -/
def Obligations.MirrorCommandWritesResult : Prop :=
  ∀ (n : Nat) (s : State),
    (n ≤ 32 → ∃ v : Word, exec (.mirror n) s = .next { s with result := v, err := .ok } ∧
      (∀ k < n, v.getLsbD (n - 1 - k) = s.arg0.getLsbD k) ∧ (∀ k, n ≤ k → v.getLsbD k = false)) ∧
    (32 < n → exec (.mirror n) s = .next { s with err := .invalidOperand })

/-! ### Parameters and table: 41_parameters_and_table.md -/

/-- R100: width 0 and widths above 32 raise INVALID_WIDTH, in every state and with no other effect; widths 1 to 32
never do. -/
def Obligations.WidthOutsideRangeIsInvalid : Prop :=
  ∀ (w : Nat) (r : Bool) (s : State),
    (w = 0 ∨ 33 ≤ w → exec (.configure w r) s = .next { s with err := .invalidWidth }) ∧
    (1 ≤ w → w ≤ 32 → ∃ t, exec (.configure w r) s = .next t ∧ t.err ≠ .invalidWidth)

/-- R101: poly, xor_in and xor_out are ARG0 to ARG2 modulo 2^w, and no bit at or above the width raises an error or
reaches any state. -/
def Obligations.OperandBitsAboveWidthAreDropped : Prop :=
  ∀ (w : Nat) (r : Bool) (s : State) (a0 a1 a2 : Word), 1 ≤ w → w ≤ 32 →
    a0.toNat % 2 ^ w = s.arg0.toNat % 2 ^ w → a1.toNat % 2 ^ w = s.arg1.toNat % 2 ^ w →
    a2.toNat % 2 ^ w = s.arg2.toNat % 2 ^ w →
    ∃ t, exec (.configure w r) s = .next t ∧
      (t.err = .ok → t.engine.poly = s.arg0 &&& maskOf w ∧ t.engine.xorIn = s.arg1 &&& maskOf w ∧
        t.engine.xorOut = s.arg2 &&& maskOf w) ∧
      exec (.configure w r) { s with arg0 := a0, arg1 := a1, arg2 := a2 } =
        .next { t with arg0 := a0, arg1 := a1, arg2 := a2 }

/-- R33, R105, R106: CONFIGURE with a legal width and no open message succeeds: it replaces the engine by one with the
stated fields, sets CFG_VALID, clears ERR, and changes nothing else. -/
def Obligations.ConfigureBuildsTheEngine : Prop :=
  ∀ (w : Nat) (r : Bool) (s : State), 1 ≤ w → w ≤ 32 → s.msgOpen = false →
    ∃ e : Engine, exec (.configure w r) s = .next { s with engine := e, cfgValid := true, err := .ok } ∧
      e.w = w ∧ e.reflect = r ∧
      e.poly.toNat = s.arg0.toNat % 2 ^ w ∧ e.xorIn.toNat = s.arg1.toNat % 2 ^ w ∧
      e.xorOut.toNat = s.arg2.toNat % 2 ^ w ∧
      e.mask.toNat = 2 ^ w - 1 ∧ e.msbMask.toNat = 2 ^ (w - 1) ∧ e.cs = max 0 (8 - w) ∧
      e.reflectedXorIn = mirror e.xorIn w ∧ e.shiftedXorIn.toNat = e.xorIn.toNat * 2 ^ e.cs ∧
      (r = true → e.variant = .reflected) ∧
      (r = false → w = 8 → e.xorIn = 0#32 → e.xorOut = 0#32 → e.variant = .fast) ∧
      (r = false → ¬ (w = 8 ∧ e.xorIn = 0#32 ∧ e.xorOut = 0#32) → e.variant = .nonreflected) ∧
      (∀ i < 256, tableRead e.table i = tableEntry w e.poly r i)

/-- R104: entries are below 2^w; entry 0 is 0; entry 1 is the poly without reflection; entry 128 the mirrored poly with
it; the tested bit is bit max(8, w) - 1. -/
def Obligations.TableEntryLandmarks : Prop :=
  ∀ (w : Nat) (poly : Word), 1 ≤ w → w ≤ 32 → poly.toNat < 2 ^ w →
    (∀ (r : Bool) (i : Nat), i < 256 → (tableEntry w poly r i).toNat < 2 ^ w) ∧
    (∀ r, tableEntry w poly r 0 = 0#32) ∧
    tableEntry w poly false 1 = poly ∧ tableEntry w poly true 128 = mirror poly w ∧
    (msbMaskOf w <<< crcShiftOf w).toNat = 2 ^ (max 8 w - 1)

/-- R108: TBLRD with an engine writes the entry into RESULT and clears ERR, and nothing else changes; the value is below
2^WIDTH and that of entry 0 is 0; without an engine it raises NOT_CONFIGURED. -/
def Obligations.TblrdReadsOneEntry : Prop :=
  ∀ (i : Nat) (s : State), i < 256 →
    (s.cfgValid = true → ∃ v : Word, exec (.tblrd i) s = .next { s with result := v, err := .ok } ∧
      s.engine.table[i]? = some v ∧ (Inv s → v.toNat < 2 ^ s.engine.w ∧ (i = 0 → v = 0#32))) ∧
    (s.cfgValid = false → exec (.tblrd i) s = .next { s with err := .notConfigured })

/-! ### The two paths: 42_calculate_table.md, 43_calculate_no_table.md -/

/-- R132 and R133, the corner cases: for WIDTH up to 8 the step is one TABLE read (shifted by CRC_SHIFT below 8 on the
non-reflected path), and at WIDTH 32 the non-reflected step is the read at ACC >> 24 ^ byte exclusive-or ACC << 8. -/
def Obligations.TableStepCornerCases : Prop :=
  ∀ (e : Engine) (acc : Word) (b : Byte), e.Valid →
    (e.w ≤ 8 → acc.toNat < 2 ^ e.w →
      stepReflected e acc b = tableRead e.table ((acc ^^^ b.setWidth 32) &&& 0xFF#32).toNat) ∧
    (e.w < 8 → acc.toNat < 2 ^ 8 → 2 ^ e.cs ∣ acc.toNat →
      stepNonreflected e acc b = tableRead e.table ((acc ^^^ b.setWidth 32) &&& 0xFF#32).toNat <<< e.cs) ∧
    (e.w = 8 → acc.toNat < 2 ^ 8 → stepNonreflected e acc b = tableRead e.table (acc ^^^ b.setWidth 32).toNat) ∧
    (e.w = 32 → stepNonreflected e acc b =
      tableRead e.table ((acc >>> 24) ^^^ b.setWidth 32).toNat ^^^ (acc <<< 8))

/-- R135: for a configuration whose VARIANT is FAST the fast step, initial register, finish and checksum equal those of
the non-reflected path, and so does every ACC of a message. -/
def Obligations.FastPathEqualsNonreflected : Prop :=
  ∀ e : Engine, e.Valid → e.variant = .fast →
    (∀ (acc : Word) (b : Byte), acc.toNat < 2 ^ 8 → stepFast e acc b = stepNonreflected e acc b) ∧
    initTable e = e.shiftedXorIn ∧
    (∀ acc : Word, finTable e acc = (acc >>> e.cs) ^^^ e.xorOut) ∧
    (∀ bs : List Byte, bs.foldl (stepTable e) (initTable e) = bs.foldl (stepNonreflected e) e.shiftedXorIn)

/-- R136, R137, R152 and R153, their bounds: both checksums are below 2^WIDTH, for every valid engine and byte sequence. -/
def Obligations.ChecksumsFitTheWidth : Prop :=
  ∀ (e : Engine) (bs : List Byte), e.Valid →
    (calculate e bs).toNat < 2 ^ e.w ∧ (calculateNoTable e bs).toNat < 2 ^ e.w

/-- R138 and R153: the checksum of the empty input, by variant and by REFLECT, and that of the catalog models: crc24
gives its XOR_IN, every other model gives 0. -/
def Obligations.EmptyInputChecksum : Prop :=
  (∀ e : Engine, e.Valid →
    (e.variant = .reflected → calculate e [] = mirror e.xorIn e.w ^^^ e.xorOut) ∧
    (e.variant = .nonreflected → calculate e [] = e.xorIn ^^^ e.xorOut) ∧
    (e.variant = .fast → calculate e [] = 0#32) ∧
    (e.reflect = false → calculateNoTable e [] = e.xorIn ^^^ e.xorOut) ∧
    (e.reflect = true → calculateNoTable e [] = mirror e.xorIn e.w ^^^ e.xorOut)) ∧
  (∀ m ∈ catalog, calculate m.engine [] = if m.name = "crc24" then 0xB704CE#32 else 0#32)

/-- R151, the bound and the corner cases of the reference step: width 1, and poly 0, where input bits have no effect. -/
def Obligations.ReferenceStepCornerCases : Prop :=
  ∀ (e : Engine) (acc : Word) (b : Byte), e.Valid → acc.toNat < 2 ^ e.w →
    (stepRef e acc b).toNat < 2 ^ e.w ∧
    (e.poly = 0#32 → stepRef e acc b = (acc <<< 8) &&& e.mask) ∧
    (e.w = 1 → ∀ k, refBit e b acc k = if acc.getLsbD 0 != b.getLsbD k then e.poly &&& 1#32 else 0#32)

/-- R38 and 95 section 1.3: after the same bytes, the table path's ACC is the reference path's in the form of its
variant: mirrored over WIDTH, shifted left by CRC_SHIFT, or the same for FAST. -/
def Obligations.TableAccIsReferenceAccInItsForm : Prop :=
  ∀ (e : Engine) (bs : List Byte), e.Valid →
    let reference := bs.foldl (stepRef e) (initRef e)
    let table := bs.foldl (stepTable e) (initTable e)
    (e.variant = .reflected → table = mirror reference e.w) ∧
    (e.variant = .nonreflected → table = reference <<< e.cs) ∧
    (e.variant = .fast → table = reference)

/-- R154: the table path and the reference path agree for every valid configuration and every byte sequence. -/
def Obligations.TablePathEqualsReferencePath : Prop :=
  ∀ (e : Engine) (bs : List Byte), e.Valid → calculate e bs = calculateNoTable e bs

/-! ### Messages: 44_message_commands.md -/

/-- R160: what each command does in the states IDLE and OPEN; reset enters IDLE; an error never changes the state. -/
def Obligations.MessageLifecycle : Prop :=
  (∀ s : State, s.msgOpen = false →
    (s.cfgValid = true → ∀ p, ∃ t, exec (initInstr p) s = .next t ∧ t.err = .ok ∧ t.msgOpen = true) ∧
    (∀ b, exec (.byte b) s = .next (s.setErr .noMessage)) ∧
    exec .final s = .next (s.setErr .noMessage) ∧
    (∀ w r, 1 ≤ w → w ≤ 32 → ∃ t, exec (.configure w r) s = .next t ∧ t.err = .ok ∧ t.msgOpen = false)) ∧
  (∀ s : State, s.msgOpen = true →
    (s.cfgValid = true → ∀ p, exec (initInstr p) s = .next
      { s with path := p, acc := initOn p s.engine, msgOpen := true, err := .ok }) ∧
    (∀ b, ∃ v, exec (.byte b) s = .next { s with acc := v, err := .ok }) ∧
    (∃ v, exec .final s = .next { s with result := v, msgOpen := false, err := .ok }) ∧
    (∀ w r, 1 ≤ w → w ≤ 32 → exec (.configure w r) s = .next (s.setErr .messageOpen))) ∧
  (∀ s : State,
    (∀ n ≤ 32, ∃ v, exec (.mirror n) s = .next { s with result := v, err := .ok }) ∧
    (s.cfgValid = true → ∀ i, ∃ v, exec (.tblrd i) s = .next { s with result := v, err := .ok })) ∧
  State.reset.msgOpen = false ∧
  (∀ (cmd : Word) (s t : State), execute cmd s = .next t → t.err ≠ .ok → t.msgOpen = s.msgOpen)

/-- R161: INIT.T with an engine opens a message on the table path with the variant's initial register, and nothing else
changes; without one it raises NOT_CONFIGURED. -/
def Obligations.InitTLoadsTheVariantsRegister : Prop :=
  ∀ s : State, Inv s →
    (s.cfgValid = true → ∃ v : Word,
      exec .initT s = .next { s with path := .table, acc := v, msgOpen := true, err := .ok } ∧
      (s.engine.variant = .reflected → v = mirror s.engine.xorIn s.engine.w) ∧
      (s.engine.variant = .nonreflected → v.toNat = s.engine.xorIn.toNat * 2 ^ s.engine.cs) ∧
      (s.engine.variant = .fast → v = 0#32)) ∧
    (s.cfgValid = false → exec .initT s = .next { s with err := .notConfigured })

/-- R162: INIT.N with an engine opens a message on the reference path with ACC = XOR_IN, and nothing else changes;
without one it raises NOT_CONFIGURED. -/
def Obligations.InitNLoadsXorIn : Prop :=
  ∀ s : State,
    (s.cfgValid = true → exec .initN s =
      .next { s with path := .reference, acc := s.engine.xorIn, msgOpen := true, err := .ok }) ∧
    (s.cfgValid = false → exec .initN s = .next { s with err := .notConfigured })

/-- R132 to R134, R163: BYTE in an open message takes ACC to the step of its path and variant and clears ERR, and nothing
else changes; with no message open it raises NO_MESSAGE. -/
def Obligations.ByteStepsAcc : Prop :=
  ∀ (b : Byte) (s : State), Inv s →
    (s.msgOpen = true → ∃ v : Word, exec (.byte b) s = .next { s with acc := v, err := .ok } ∧
      (s.path = .table → s.engine.variant = .reflected →
        v = (tableRead s.engine.table ((s.acc ^^^ b.setWidth 32) &&& 0xFF#32).toNat ^^^ (s.acc >>> 8)) &&&
          s.engine.mask) ∧
      (s.path = .table → s.engine.variant = .nonreflected →
        v = ((tableRead s.engine.table
            (((s.acc >>> (max 8 s.engine.w - 8)) ^^^ b.setWidth 32) &&& 0xFF#32).toNat <<< s.engine.cs) ^^^
            (s.acc <<< (8 - s.engine.cs))) &&& (s.engine.mask <<< s.engine.cs)) ∧
      (s.path = .table → s.engine.variant = .fast →
        v = tableRead s.engine.table (s.acc ^^^ b.setWidth 32).toNat) ∧
      (s.path = .reference → v = stepRef s.engine s.acc b)) ∧
    (s.msgOpen = false → exec (.byte b) s = .next { s with err := .noMessage })

/-- R136, R152, R164: FINAL in an open message writes the finish of its path and variant to RESULT, closes the message
and clears ERR; ACC, PATH and all else stay; with no message open it raises NO_MESSAGE. -/
def Obligations.FinalWritesTheChecksum : Prop :=
  ∀ s : State, Inv s →
    (s.msgOpen = true → ∃ v : Word,
      exec .final s = .next { s with result := v, msgOpen := false, err := .ok } ∧
      (s.path = .table → s.engine.variant = .reflected → v = s.acc ^^^ s.engine.xorOut) ∧
      (s.path = .table → s.engine.variant = .nonreflected → v = (s.acc >>> s.engine.cs) ^^^ s.engine.xorOut) ∧
      (s.path = .table → s.engine.variant = .fast → v = s.acc) ∧
      (s.path = .reference → s.engine.reflect = true → v = mirror s.acc s.engine.w ^^^ s.engine.xorOut) ∧
      (s.path = .reference → s.engine.reflect = false → v = s.acc ^^^ s.engine.xorOut)) ∧
    (s.msgOpen = false → exec .final s = .next { s with err := .noMessage })

/-- R165: from a state with CFG_VALID = 1, the events of one message (INIT on a path, BYTE commands with quiet events
between them, FINAL) run to the end; each message command succeeds; RESULT is the path's function of the bytes fed;
the message is closed, PATH names its path, and the engine is as before. ARG0 to ARG2 are as before where the host wrote
none of them (log entry 6). -/
def Obligations.MessageComputesItsChecksum : Prop :=
  ∀ (s : State) (p : Path) (first last : HostEvent) (body rest : List HostEvent),
    s.cfgValid = true → first.runs (initInstr p) → last.runs .final → messageBody body →
    s.pending = first :: (body ++ last :: rest) →
    (∀ pre ev post, first :: (body ++ [last]) = pre ++ ev :: post → ev.quiet = false →
      ∃ t, run (pre.length + 1) s = .next t ∧ t.err = .ok) ∧
    ∃ t, run (body.length + 2) s = .next t ∧ t.pending = rest ∧
      t.result = checksumOn p s.engine (fedBytes body) ∧ t.msgOpen = false ∧ t.path = p ∧
      t.engine = s.engine ∧ t.cfgValid = true ∧
      ((∀ ev ∈ body, ∃ v, ev.cmdWord? = some v) → t.arg0 = s.arg0 ∧ t.arg1 = s.arg1 ∧ t.arg2 = s.arg2)

/-- R166: after a successful FINAL a BYTE raises NO_MESSAGE; a new INIT starts from the same register whatever ACC holds;
ACC is what it was before FINAL and stays readable; and no host write loads it. -/
def Obligations.NoContinuationAfterFinal : Prop :=
  ∀ s t : State, exec .final s = .next t → t.err = .ok →
    (∀ b, exec (.byte b) t = .next (t.setErr .noMessage)) ∧
    (∀ (p : Path) (a : Word), t.cfgValid = true → ∃ u, exec (initInstr p) { t with acc := a } = .next u ∧
      exec (initInstr p) t = .next u ∧ u.acc = initOn p t.engine) ∧
    t.acc = s.acc ∧
    (∀ rest, t.pending = .read 0x18#8 .word :: rest → step t = .next (t.setBus rest (some s.acc))) ∧
    (∀ v rest, t.pending = .write 0x18#8 .word v :: rest → step t = .next (t.setBus rest none))

/-- R167: inside an open message a quiet event (a write to an ARG register, MIRROR, TBLRD, CONFIGURE, an illegal
word) leaves the message open with its ACC, PATH and engine; MIRROR and TBLRD write RESULT and ERR only; FINAL overwrites
whatever RESULT they left; CONFIGURE of a legal width raises MESSAGE_OPEN, and of no width succeeds; and any command that
raises an error leaves the message open with its ACC. -/
def Obligations.QuietEventsLeaveTheMessageAlone : Prop :=
  (∀ (s : State) (ev : HostEvent) (rest : List HostEvent), s.msgOpen = true → ev.quiet = true →
    s.pending = ev :: rest →
    ∃ t, step s = .next t ∧ t.msgOpen = true ∧ t.acc = s.acc ∧ t.path = s.path ∧ t.engine = s.engine ∧
      t.cfgValid = s.cfgValid ∧ t.pending = rest) ∧
  (∀ (s t : State) (n i : Nat), exec (.mirror n) s = .next t ∨ exec (.tblrd i) s = .next t →
    t = { s with result := t.result, err := t.err }) ∧
  (∀ (s : State) (v : Word), s.msgOpen = true → exec .final { s with result := v } = exec .final s) ∧
  (∀ (s : State) (w : Nat) (r : Bool), s.msgOpen = true →
    (1 ≤ w → w ≤ 32 → exec (.configure w r) s = .next (s.setErr .messageOpen)) ∧
    (∀ t, exec (.configure w r) s = .next t → t.err ≠ .ok)) ∧
  (∀ (cmd : Word) (s t : State), s.msgOpen = true → execute cmd s = .next t → t.err ≠ .ok →
    t.msgOpen = true ∧ t.acc = s.acc)

/-! ### Errors: 60_exceptions.md -/

/-- R182: every word, from every state, ends in a next state, and a command that raises an error changes ERR alone. -/
def Obligations.FailedCommandChangesOnlyErr : Prop :=
  ∀ (cmd : Word) (s : State), ∃ t, execute cmd s = .next t ∧ (t.err ≠ .ok → t = { s with err := t.err })

/-- R181 and R184: the outcome of every word in every state, in the order decode, operand range, state; codes above 6
are never written. -/
def Obligations.ErrorCodesAndPriority : Prop :=
  (∀ (cmd : Word) (s : State), ∃ t, execute cmd s = .next t ∧
    t.err =
      (match decode cmd with
        | .illegal _ => .illegalCommand
        | .command (.configure w _) =>
          if w < 1 ∨ 32 < w then .invalidWidth else if s.msgOpen = true then .messageOpen else .ok
        | .command (.mirror n) => if 32 < n then .invalidOperand else .ok
        | .command .initT | .command .initN | .command (.tblrd _) => if s.cfgValid = true then .ok else .notConfigured
        | .command (.byte _) | .command .final => if s.msgOpen = true then .ok else .noMessage) ∧
    t.err.code.toNat ≤ 6) ∧
  (Err.ok.code = 0#4 ∧ Err.invalidWidth.code = 1#4 ∧ Err.illegalCommand.code = 2#4 ∧ Err.invalidOperand.code = 3#4 ∧
    Err.notConfigured.code = 4#4 ∧ Err.noMessage.code = 5#4 ∧ Err.messageOpen.code = 6#4) ∧
  (∀ s : State, execute 0x00000001#32 s = .next (s.setErr .invalidWidth) ∧
    execute 0x00020001#32 s = .next (s.setErr .illegalCommand))

/-! ### The two paths side by side: 10_state.md, 42_calculate_table.md, 43_calculate_no_table.md -/

/-- R38, R131 to R136, R150 to R152 and R154, step by step, for two cores with the same engine. INIT.T on the one and INIT.N
on the other put them side by side (`SideBySide`: both in the invariant, the same engine, open messages on the two paths,
the first ACC that of the second in the form of its variant). Every next event that both share and that is no reset, no
INIT and no FINAL keeps them so: both cores answer, or both refuse it alike. A FINAL that both share closes both with the
same RESULT. -/
def Obligations.PathsRunSideBySide : Prop :=
  (∀ (s r : State) (evS evR : HostEvent) (restS restR : List HostEvent), Inv s → Inv r → s.engine = r.engine →
    s.cfgValid = true → r.cfgValid = true → s.pending = evS :: restS → r.pending = evR :: restR →
    evS.runs .initT → evR.runs .initN →
    ∃ t u, step s = .next t ∧ step r = .next u ∧ SideBySide t u) ∧
  (∀ (s r : State) (ev : HostEvent) (restS restR : List HostEvent), SideBySide s r →
    s.pending = ev :: restS → r.pending = ev :: restR →
    (ev ≠ .reset → ¬ ev.runs .initT → ¬ ev.runs .initN → ¬ ev.runs .final →
      (ev.supported = true → ∃ t u, step s = .next t ∧ step r = .next u ∧ SideBySide t u) ∧
      (ev.supported = false → ∃ x, step s = .refused x ∧ step r = .refused x)) ∧
    (ev.runs .final → ∃ t u, step s = .next t ∧ step r = .next u ∧ t.err = .ok ∧ u.err = .ok ∧
      t.msgOpen = false ∧ u.msgOpen = false ∧ t.result = u.result))
end

