-- ==== Sys2Proof/Laws/State.lean ====
section
/-! SUPPORT. Laws/State.lean: what each field of State is after each update, so that no proof unfolds an update. -/

namespace Sys2Proof.Machine

/-! ### setErr -/

@[simp] theorem State.setErr_arg0 (s : State) (e : Err) : (s.setErr e).arg0 = s.arg0 := rfl
@[simp] theorem State.setErr_arg1 (s : State) (e : Err) : (s.setErr e).arg1 = s.arg1 := rfl
@[simp] theorem State.setErr_arg2 (s : State) (e : Err) : (s.setErr e).arg2 = s.arg2 := rfl
@[simp] theorem State.setErr_result (s : State) (e : Err) : (s.setErr e).result = s.result := rfl
@[simp] theorem State.setErr_acc (s : State) (e : Err) : (s.setErr e).acc = s.acc := rfl
@[simp] theorem State.setErr_cfgValid (s : State) (e : Err) : (s.setErr e).cfgValid = s.cfgValid := rfl
@[simp] theorem State.setErr_msgOpen (s : State) (e : Err) : (s.setErr e).msgOpen = s.msgOpen := rfl
@[simp] theorem State.setErr_path (s : State) (e : Err) : (s.setErr e).path = s.path := rfl
@[simp] theorem State.setErr_err (s : State) (e : Err) : (s.setErr e).err = e := rfl
@[simp] theorem State.setErr_engine (s : State) (e : Err) : (s.setErr e).engine = s.engine := rfl
@[simp] theorem State.setErr_pending (s : State) (e : Err) : (s.setErr e).pending = s.pending := rfl
@[simp] theorem State.setErr_readData (s : State) (e : Err) : (s.setErr e).readData = s.readData := rfl

/-! ### setResult -/

@[simp] theorem State.setResult_arg0 (s : State) (v : Word) : (s.setResult v).arg0 = s.arg0 := rfl
@[simp] theorem State.setResult_arg1 (s : State) (v : Word) : (s.setResult v).arg1 = s.arg1 := rfl
@[simp] theorem State.setResult_arg2 (s : State) (v : Word) : (s.setResult v).arg2 = s.arg2 := rfl
@[simp] theorem State.setResult_result (s : State) (v : Word) : (s.setResult v).result = v := rfl
@[simp] theorem State.setResult_acc (s : State) (v : Word) : (s.setResult v).acc = s.acc := rfl
@[simp] theorem State.setResult_cfgValid (s : State) (v : Word) : (s.setResult v).cfgValid = s.cfgValid := rfl
@[simp] theorem State.setResult_msgOpen (s : State) (v : Word) : (s.setResult v).msgOpen = s.msgOpen := rfl
@[simp] theorem State.setResult_path (s : State) (v : Word) : (s.setResult v).path = s.path := rfl
@[simp] theorem State.setResult_err (s : State) (v : Word) : (s.setResult v).err = s.err := rfl
@[simp] theorem State.setResult_engine (s : State) (v : Word) : (s.setResult v).engine = s.engine := rfl
@[simp] theorem State.setResult_pending (s : State) (v : Word) : (s.setResult v).pending = s.pending := rfl
@[simp] theorem State.setResult_readData (s : State) (v : Word) : (s.setResult v).readData = s.readData := rfl

/-! ### setAcc -/

@[simp] theorem State.setAcc_arg0 (s : State) (v : Word) : (s.setAcc v).arg0 = s.arg0 := rfl
@[simp] theorem State.setAcc_arg1 (s : State) (v : Word) : (s.setAcc v).arg1 = s.arg1 := rfl
@[simp] theorem State.setAcc_arg2 (s : State) (v : Word) : (s.setAcc v).arg2 = s.arg2 := rfl
@[simp] theorem State.setAcc_result (s : State) (v : Word) : (s.setAcc v).result = s.result := rfl
@[simp] theorem State.setAcc_acc (s : State) (v : Word) : (s.setAcc v).acc = v := rfl
@[simp] theorem State.setAcc_cfgValid (s : State) (v : Word) : (s.setAcc v).cfgValid = s.cfgValid := rfl
@[simp] theorem State.setAcc_msgOpen (s : State) (v : Word) : (s.setAcc v).msgOpen = s.msgOpen := rfl
@[simp] theorem State.setAcc_path (s : State) (v : Word) : (s.setAcc v).path = s.path := rfl
@[simp] theorem State.setAcc_err (s : State) (v : Word) : (s.setAcc v).err = s.err := rfl
@[simp] theorem State.setAcc_engine (s : State) (v : Word) : (s.setAcc v).engine = s.engine := rfl
@[simp] theorem State.setAcc_pending (s : State) (v : Word) : (s.setAcc v).pending = s.pending := rfl
@[simp] theorem State.setAcc_readData (s : State) (v : Word) : (s.setAcc v).readData = s.readData := rfl

/-! ### setArg0 -/

@[simp] theorem State.setArg0_arg0 (s : State) (v : Word) : (s.setArg0 v).arg0 = v := rfl
@[simp] theorem State.setArg0_arg1 (s : State) (v : Word) : (s.setArg0 v).arg1 = s.arg1 := rfl
@[simp] theorem State.setArg0_arg2 (s : State) (v : Word) : (s.setArg0 v).arg2 = s.arg2 := rfl
@[simp] theorem State.setArg0_result (s : State) (v : Word) : (s.setArg0 v).result = s.result := rfl
@[simp] theorem State.setArg0_acc (s : State) (v : Word) : (s.setArg0 v).acc = s.acc := rfl
@[simp] theorem State.setArg0_cfgValid (s : State) (v : Word) : (s.setArg0 v).cfgValid = s.cfgValid := rfl
@[simp] theorem State.setArg0_msgOpen (s : State) (v : Word) : (s.setArg0 v).msgOpen = s.msgOpen := rfl
@[simp] theorem State.setArg0_path (s : State) (v : Word) : (s.setArg0 v).path = s.path := rfl
@[simp] theorem State.setArg0_err (s : State) (v : Word) : (s.setArg0 v).err = s.err := rfl
@[simp] theorem State.setArg0_engine (s : State) (v : Word) : (s.setArg0 v).engine = s.engine := rfl
@[simp] theorem State.setArg0_pending (s : State) (v : Word) : (s.setArg0 v).pending = s.pending := rfl
@[simp] theorem State.setArg0_readData (s : State) (v : Word) : (s.setArg0 v).readData = s.readData := rfl

/-! ### setArg1 -/

@[simp] theorem State.setArg1_arg0 (s : State) (v : Word) : (s.setArg1 v).arg0 = s.arg0 := rfl
@[simp] theorem State.setArg1_arg1 (s : State) (v : Word) : (s.setArg1 v).arg1 = v := rfl
@[simp] theorem State.setArg1_arg2 (s : State) (v : Word) : (s.setArg1 v).arg2 = s.arg2 := rfl
@[simp] theorem State.setArg1_result (s : State) (v : Word) : (s.setArg1 v).result = s.result := rfl
@[simp] theorem State.setArg1_acc (s : State) (v : Word) : (s.setArg1 v).acc = s.acc := rfl
@[simp] theorem State.setArg1_cfgValid (s : State) (v : Word) : (s.setArg1 v).cfgValid = s.cfgValid := rfl
@[simp] theorem State.setArg1_msgOpen (s : State) (v : Word) : (s.setArg1 v).msgOpen = s.msgOpen := rfl
@[simp] theorem State.setArg1_path (s : State) (v : Word) : (s.setArg1 v).path = s.path := rfl
@[simp] theorem State.setArg1_err (s : State) (v : Word) : (s.setArg1 v).err = s.err := rfl
@[simp] theorem State.setArg1_engine (s : State) (v : Word) : (s.setArg1 v).engine = s.engine := rfl
@[simp] theorem State.setArg1_pending (s : State) (v : Word) : (s.setArg1 v).pending = s.pending := rfl
@[simp] theorem State.setArg1_readData (s : State) (v : Word) : (s.setArg1 v).readData = s.readData := rfl

/-! ### setArg2 -/

@[simp] theorem State.setArg2_arg0 (s : State) (v : Word) : (s.setArg2 v).arg0 = s.arg0 := rfl
@[simp] theorem State.setArg2_arg1 (s : State) (v : Word) : (s.setArg2 v).arg1 = s.arg1 := rfl
@[simp] theorem State.setArg2_arg2 (s : State) (v : Word) : (s.setArg2 v).arg2 = v := rfl
@[simp] theorem State.setArg2_result (s : State) (v : Word) : (s.setArg2 v).result = s.result := rfl
@[simp] theorem State.setArg2_acc (s : State) (v : Word) : (s.setArg2 v).acc = s.acc := rfl
@[simp] theorem State.setArg2_cfgValid (s : State) (v : Word) : (s.setArg2 v).cfgValid = s.cfgValid := rfl
@[simp] theorem State.setArg2_msgOpen (s : State) (v : Word) : (s.setArg2 v).msgOpen = s.msgOpen := rfl
@[simp] theorem State.setArg2_path (s : State) (v : Word) : (s.setArg2 v).path = s.path := rfl
@[simp] theorem State.setArg2_err (s : State) (v : Word) : (s.setArg2 v).err = s.err := rfl
@[simp] theorem State.setArg2_engine (s : State) (v : Word) : (s.setArg2 v).engine = s.engine := rfl
@[simp] theorem State.setArg2_pending (s : State) (v : Word) : (s.setArg2 v).pending = s.pending := rfl
@[simp] theorem State.setArg2_readData (s : State) (v : Word) : (s.setArg2 v).readData = s.readData := rfl

/-! ### openMessage -/

@[simp] theorem State.openMessage_arg0 (s : State) (p : Path) (v : Word) : (s.openMessage p v).arg0 = s.arg0 := rfl
@[simp] theorem State.openMessage_arg1 (s : State) (p : Path) (v : Word) : (s.openMessage p v).arg1 = s.arg1 := rfl
@[simp] theorem State.openMessage_arg2 (s : State) (p : Path) (v : Word) : (s.openMessage p v).arg2 = s.arg2 := rfl
@[simp] theorem State.openMessage_result (s : State) (p : Path) (v : Word) : (s.openMessage p v).result = s.result := rfl
@[simp] theorem State.openMessage_acc (s : State) (p : Path) (v : Word) : (s.openMessage p v).acc = v := rfl
@[simp] theorem State.openMessage_cfgValid (s : State) (p : Path) (v : Word) : (s.openMessage p v).cfgValid = s.cfgValid := rfl
@[simp] theorem State.openMessage_msgOpen (s : State) (p : Path) (v : Word) : (s.openMessage p v).msgOpen = true := rfl
@[simp] theorem State.openMessage_path (s : State) (p : Path) (v : Word) : (s.openMessage p v).path = p := rfl
@[simp] theorem State.openMessage_err (s : State) (p : Path) (v : Word) : (s.openMessage p v).err = s.err := rfl
@[simp] theorem State.openMessage_engine (s : State) (p : Path) (v : Word) : (s.openMessage p v).engine = s.engine := rfl
@[simp] theorem State.openMessage_pending (s : State) (p : Path) (v : Word) : (s.openMessage p v).pending = s.pending := rfl
@[simp] theorem State.openMessage_readData (s : State) (p : Path) (v : Word) : (s.openMessage p v).readData = s.readData := rfl

/-! ### closeMessage -/

@[simp] theorem State.closeMessage_arg0 (s : State) : (s.closeMessage).arg0 = s.arg0 := rfl
@[simp] theorem State.closeMessage_arg1 (s : State) : (s.closeMessage).arg1 = s.arg1 := rfl
@[simp] theorem State.closeMessage_arg2 (s : State) : (s.closeMessage).arg2 = s.arg2 := rfl
@[simp] theorem State.closeMessage_result (s : State) : (s.closeMessage).result = s.result := rfl
@[simp] theorem State.closeMessage_acc (s : State) : (s.closeMessage).acc = s.acc := rfl
@[simp] theorem State.closeMessage_cfgValid (s : State) : (s.closeMessage).cfgValid = s.cfgValid := rfl
@[simp] theorem State.closeMessage_msgOpen (s : State) : (s.closeMessage).msgOpen = false := rfl
@[simp] theorem State.closeMessage_path (s : State) : (s.closeMessage).path = s.path := rfl
@[simp] theorem State.closeMessage_err (s : State) : (s.closeMessage).err = s.err := rfl
@[simp] theorem State.closeMessage_engine (s : State) : (s.closeMessage).engine = s.engine := rfl
@[simp] theorem State.closeMessage_pending (s : State) : (s.closeMessage).pending = s.pending := rfl
@[simp] theorem State.closeMessage_readData (s : State) : (s.closeMessage).readData = s.readData := rfl

/-! ### install -/

@[simp] theorem State.install_arg0 (s : State) (e : Engine) : (s.install e).arg0 = s.arg0 := rfl
@[simp] theorem State.install_arg1 (s : State) (e : Engine) : (s.install e).arg1 = s.arg1 := rfl
@[simp] theorem State.install_arg2 (s : State) (e : Engine) : (s.install e).arg2 = s.arg2 := rfl
@[simp] theorem State.install_result (s : State) (e : Engine) : (s.install e).result = s.result := rfl
@[simp] theorem State.install_acc (s : State) (e : Engine) : (s.install e).acc = s.acc := rfl
@[simp] theorem State.install_cfgValid (s : State) (e : Engine) : (s.install e).cfgValid = true := rfl
@[simp] theorem State.install_msgOpen (s : State) (e : Engine) : (s.install e).msgOpen = s.msgOpen := rfl
@[simp] theorem State.install_path (s : State) (e : Engine) : (s.install e).path = s.path := rfl
@[simp] theorem State.install_err (s : State) (e : Engine) : (s.install e).err = s.err := rfl
@[simp] theorem State.install_engine (s : State) (e : Engine) : (s.install e).engine = e := rfl
@[simp] theorem State.install_pending (s : State) (e : Engine) : (s.install e).pending = s.pending := rfl
@[simp] theorem State.install_readData (s : State) (e : Engine) : (s.install e).readData = s.readData := rfl

/-! ### setBus -/

@[simp] theorem State.setBus_arg0 (s : State) (q : List HostEvent) (d : Option Word) : (s.setBus q d).arg0 = s.arg0 := rfl
@[simp] theorem State.setBus_arg1 (s : State) (q : List HostEvent) (d : Option Word) : (s.setBus q d).arg1 = s.arg1 := rfl
@[simp] theorem State.setBus_arg2 (s : State) (q : List HostEvent) (d : Option Word) : (s.setBus q d).arg2 = s.arg2 := rfl
@[simp] theorem State.setBus_result (s : State) (q : List HostEvent) (d : Option Word) : (s.setBus q d).result = s.result := rfl
@[simp] theorem State.setBus_acc (s : State) (q : List HostEvent) (d : Option Word) : (s.setBus q d).acc = s.acc := rfl
@[simp] theorem State.setBus_cfgValid (s : State) (q : List HostEvent) (d : Option Word) : (s.setBus q d).cfgValid = s.cfgValid := rfl
@[simp] theorem State.setBus_msgOpen (s : State) (q : List HostEvent) (d : Option Word) : (s.setBus q d).msgOpen = s.msgOpen := rfl
@[simp] theorem State.setBus_path (s : State) (q : List HostEvent) (d : Option Word) : (s.setBus q d).path = s.path := rfl
@[simp] theorem State.setBus_err (s : State) (q : List HostEvent) (d : Option Word) : (s.setBus q d).err = s.err := rfl
@[simp] theorem State.setBus_engine (s : State) (q : List HostEvent) (d : Option Word) : (s.setBus q d).engine = s.engine := rfl
@[simp] theorem State.setBus_pending (s : State) (q : List HostEvent) (d : Option Word) : (s.setBus q d).pending = q := rfl
@[simp] theorem State.setBus_readData (s : State) (q : List HostEvent) (d : Option Word) : (s.setBus q d).readData = d := rfl

/-! ### post -/

@[simp] theorem State.post_arg0 (s : State) (q : List HostEvent) : (s.post q).arg0 = s.arg0 := rfl
@[simp] theorem State.post_arg1 (s : State) (q : List HostEvent) : (s.post q).arg1 = s.arg1 := rfl
@[simp] theorem State.post_arg2 (s : State) (q : List HostEvent) : (s.post q).arg2 = s.arg2 := rfl
@[simp] theorem State.post_result (s : State) (q : List HostEvent) : (s.post q).result = s.result := rfl
@[simp] theorem State.post_acc (s : State) (q : List HostEvent) : (s.post q).acc = s.acc := rfl
@[simp] theorem State.post_cfgValid (s : State) (q : List HostEvent) : (s.post q).cfgValid = s.cfgValid := rfl
@[simp] theorem State.post_msgOpen (s : State) (q : List HostEvent) : (s.post q).msgOpen = s.msgOpen := rfl
@[simp] theorem State.post_path (s : State) (q : List HostEvent) : (s.post q).path = s.path := rfl
@[simp] theorem State.post_err (s : State) (q : List HostEvent) : (s.post q).err = s.err := rfl
@[simp] theorem State.post_engine (s : State) (q : List HostEvent) : (s.post q).engine = s.engine := rfl
@[simp] theorem State.post_pending (s : State) (q : List HostEvent) : (s.post q).pending = s.pending ++ q := rfl
@[simp] theorem State.post_readData (s : State) (q : List HostEvent) : (s.post q).readData = s.readData := rfl

end Sys2Proof.Machine
end

