-- ==== Sys2Proof/Laws/Ops.lean ====
section
/-! SUPPORT. Laws/Ops.lean: one lemma per shared operation: raise and complete, masks, the mirror loop, TABLE reads,
register offsets. -/

namespace Sys2Proof.Machine

/-! ### Ends of a command -/

@[simp] theorem raise_eq_next (e : Err) (s : State) : raise e s = .next (s.setErr e) := rfl

@[simp] theorem complete_eq_next (s : State) : complete s = .next (s.setErr .ok) := rfl

/-! ### Masks -/

theorem toNat_maskOf {n : Nat} (hn : n ≤ 32) : (maskOf n).toNat = 2 ^ n - 1 := by
  have h1 : 2 ^ n ≤ 2 ^ 32 := Nat.pow_le_pow_right (by decide) hn
  have h2 : 0 < 2 ^ n := Nat.two_pow_pos n
  simp only [maskOf, BitVec.toNat_ofNat]
  exact Nat.mod_eq_of_lt (by omega)

theorem getLsbD_maskOf {n : Nat} (hn : n ≤ 32) (j : Nat) : (maskOf n).getLsbD j = decide (j < n) := by
  rw [BitVec.getLsbD, toNat_maskOf hn, Nat.testBit_two_pow_sub_one]

/-- Masking is remainder: what R101 keeps of an operand. -/
theorem toNat_and_maskOf {n : Nat} (hn : n ≤ 32) (v : Word) : (v &&& maskOf n).toNat = v.toNat % 2 ^ n := by
  rw [BitVec.toNat_and, toNat_maskOf hn, Nat.and_two_pow_sub_one_eq_mod]

theorem toNat_msbMaskOf {w : Nat} (h1 : 1 ≤ w) (h2 : w ≤ 32) : (msbMaskOf w).toNat = 2 ^ (w - 1) := by
  have h : 2 ^ (w - 1) < 2 ^ 32 := Nat.pow_lt_pow_right (by decide) (by omega)
  simp only [msbMaskOf, BitVec.toNat_shiftLeft, BitVec.toNat_ofNat, Nat.shiftLeft_eq]
  rw [Nat.mod_eq_of_lt (a := 1) (by decide), Nat.one_mul]
  exact Nat.mod_eq_of_lt h

/-! ### Mirror -/

/-- The mirror loop, bit by bit: the low `n` bits are those of the value in reverse, above them the accumulator. -/
theorem getLsbD_mirrorLoop (n : Nat) (acc v : Word) (j : Nat) :
    (mirrorLoop n acc v).getLsbD j =
      if j < n then decide (j < 32) && v.getLsbD (n - 1 - j) else decide (j < 32) && acc.getLsbD (j - n) := by
  induction n generalizing acc v with
  | zero =>
    simp only [mirrorLoop, Nat.not_lt_zero, if_false, Nat.sub_zero]
    by_cases hj : j < 32
    · simp [hj]
    · simp [hj, BitVec.getLsbD_of_ge acc j (by omega)]
  | succ n ih =>
    rw [mirrorLoop, ih]
    by_cases hj : j < n
    · have h1 : j < n + 1 := by omega
      have h2 : 1 + (n - 1 - j) = n - j := by omega
      simp [hj, h1, h2]
    · by_cases hj2 : j = n
      · subst hj2
        by_cases h32 : j < 32 <;> simp [h32]
      · have h1 : ¬ j < n + 1 := by omega
        have h3 : j - n ≠ 0 := by omega
        have h4 : j - n - 1 = j - (n + 1) := by omega
        by_cases h32 : j < 32
        · have h5 : j - n < 32 := by omega
          have h6 : j - (n + 1) < 32 := by omega
          simp [hj, h1, h32, h5, h3, h4, h6]
        · simp [hj, h1, h32]

/-! ### TABLE -/

theorem tableRead_tableOf (entry : Nat → Word) {i : Nat} (h : i < 256) : tableRead (tableOf entry) i = entry i := by
  simp [tableRead, tableOf, h]

/-! ### Register offsets -/

/-- Each register is found at its own offset (R51). -/
@[simp] theorem regAt_offset (r : Reg) : regAt r.offset = some r := by cases r <;> decide

/-- A register found at an offset has that offset. -/
theorem offset_of_regAt {off : BitVec 8} {r : Reg} (h : regAt off = some r) : r.offset = off := by
  have := List.find?_some h
  simpa using this

end Sys2Proof.Machine
end

