-- ==== Sys2Proof/Laws/Crc.lean ====
section
/-! SUPPORT. Laws/Crc.lean: the bits of the mirror, of a table round, a table entry and a reference bit-step, and the
facts that tie them together: rounds are linear over XOR, rounds on a register whose top bits stay clear only shift, and
the reference step of a byte is eight rounds on the padded register. -/

namespace Sys2Proof.Machine

/-- Within its domain, the mirror is the loop of R90. -/
theorem mirror_of_le (v : Word) {n : Nat} (hn : n ≤ 32) : mirror v n = mirrorLoop n 0#32 v := if_pos hn

/-- Bit `j` of a mirror (R90). -/
theorem getLsbD_mirror (v : Word) {n : Nat} (hn : n ≤ 32) (j : Nat) :
    (mirror v n).getLsbD j = (decide (j < n) && v.getLsbD (n - 1 - j)) := by
  rw [mirror_of_le v hn, getLsbD_mirrorLoop]
  by_cases hj : j < n
  · simp [hj, show j < 32 by omega]
  · simp [hj]

/-- Bit `j` of a mirrored byte. -/
theorem getLsbD_mirrorByte (b : Byte) (j : Nat) : (mirrorByte b).getLsbD j = (decide (j < 8) && b.getLsbD (7 - j)) := by
  rw [mirrorByte, BitVec.getLsbD_setWidth, getLsbD_mirror _ (by omega), BitVec.getLsbD_setWidth]
  by_cases hj : j < 8
  · simp [hj]; omega
  · simp [hj]

/-- A word meets a single-bit mask exactly when it has that bit. -/
theorem and_twoPow_ne_zero (x : Word) {k : Nat} (hk : k < 32) : (x &&& (1#32 <<< k) ≠ 0#32) ↔ x.getLsbD k = true := by
  constructor
  · intro h
    apply Classical.byContradiction
    intro hx
    apply h
    apply BitVec.eq_of_getLsbD_eq
    intro i hi
    by_cases hik : i = k
    · subst hik; simp at hx; simp [hx]
    · by_cases h2 : i < k
      · simp [h2]
      · have : i - k ≠ 0 := by omega
        simp [this]
  · intro h h0
    have := congrArg (fun y => y.getLsbD k) h0
    simp [hk] at this
    simp [hk] at h
    rw [h] at this; contradiction

/-- One table round: shift left, and XOR with the aligned poly when bit `w + cs - 1` was set (R103 step 3). -/
theorem tableRound_eq {w : Nat} (h1 : 1 ≤ w) (h2 : w ≤ 32) (p reg : Word) :
    tableRound w p reg = (reg <<< 1) ^^^ (if reg.getLsbD (w + crcShiftOf w - 1) then p <<< crcShiftOf w else 0#32) := by
  have h3 : w + crcShiftOf w - 1 < 32 := by unfold crcShiftOf; omega
  have h4 : msbMaskOf w <<< crcShiftOf w = 1#32 <<< (w + crcShiftOf w - 1) := by
    rw [msbMaskOf, ← BitVec.shiftLeft_add]
    congr 1; omega
  unfold tableRound
  rw [h4]
  have := and_twoPow_ne_zero reg h3
  by_cases hb : reg.getLsbD (w + crcShiftOf w - 1) = true
  · rw [if_pos (this.2 hb), if_pos hb]
  · rw [if_neg (fun h => hb (this.1 h)), if_neg hb]; simp

/-- A table round is linear over XOR. -/
theorem tableRound_xor {w : Nat} (h1 : 1 ≤ w) (h2 : w ≤ 32) (p x y : Word) :
    tableRound w p (x ^^^ y) = tableRound w p x ^^^ tableRound w p y := by
  simp only [tableRound_eq h1 h2, BitVec.getLsbD_xor, BitVec.shiftLeft_xor_distrib]
  cases x.getLsbD (w + crcShiftOf w - 1) <;> cases y.getLsbD (w + crcShiftOf w - 1) <;> simp
  · rw [BitVec.xor_assoc]
  · rw [BitVec.xor_assoc, BitVec.xor_assoc, BitVec.xor_comm (y <<< 1)]
  · rw [BitVec.xor_assoc, BitVec.xor_comm (p <<< _), BitVec.xor_assoc (y <<< 1)]
    simp

/-- Table rounds are linear over XOR. -/
theorem tableRounds_xor {w : Nat} (h1 : 1 ≤ w) (h2 : w ≤ 32) (p : Word) (n : Nat) (x y : Word) :
    tableRounds w p n (x ^^^ y) = tableRounds w p n x ^^^ tableRounds w p n y := by
  induction n generalizing x y with
  | zero => rfl
  | succ n ih => rw [tableRounds, tableRound_xor h1 h2, ih]; rfl

/-- The last of `n + 1` rounds, taken apart. -/
theorem tableRounds_succ_last (w : Nat) (p : Word) (n : Nat) (x : Word) :
    tableRounds w p (n + 1) x = tableRound w p (tableRounds w p n x) := by
  induction n generalizing x with
  | zero => rfl
  | succ n ih => rw [tableRounds, ih]; rfl

/-- Rounds on a register whose top `n` bits are clear only shift it. -/
theorem tableRounds_low {w : Nat} (h1 : 1 ≤ w) (h2 : w ≤ 32) (p : Word) (n : Nat) (x : Word)
    (hx : ∀ i, w + crcShiftOf w ≤ i + n → i < w + crcShiftOf w → x.getLsbD i = false) : tableRounds w p n x =
      x <<< n := by
  induction n with
  | zero => simp [tableRounds]
  | succ n ih =>
    rw [tableRounds_succ_last, ih (fun i hi hj => hx i (by omega) hj), tableRound_eq h1 h2, ← BitVec.shiftLeft_add]
    have h3 : 8 ≤ w + crcShiftOf w ∧ w + crcShiftOf w ≤ 32 := by unfold crcShiftOf; omega
    have h : (x <<< n).getLsbD (w + crcShiftOf w - 1) = false := by
      rw [BitVec.getLsbD_shiftLeft]
      by_cases h4 : w + crcShiftOf w - 1 < n
      · simp [h4]
      · rw [hx _ (by omega) (by omega)]; simp
    rw [h]; simp

/-- A word below `2^n` has no bit at or above `n`. -/
theorem getLsbD_of_toNat_lt {x : Word} {n i : Nat} (h : x.toNat < 2 ^ n) (hi : n ≤ i) : x.getLsbD i = false := by
  rw [BitVec.getLsbD]; exact Nat.testBit_lt_two_pow (Nat.lt_of_lt_of_le h (Nat.pow_le_pow_right (by decide) hi))

/-- Bit `k` of 0xFF. -/
theorem getLsbD_ff (k : Nat) : (0xFF#32).getLsbD k = decide (k < 8) := by
  have := getLsbD_maskOf (show 8 ≤ 32 by omega) k
  simpa [maskOf] using this

/-- An index masked with 0xFF names a TABLE entry. -/
theorem toNat_and_ff_lt (x : Word) : (x &&& 0xFF#32).toNat < 256 := by
  rw [BitVec.toNat_and]
  exact Nat.lt_of_le_of_lt Nat.and_le_right (by decide)

/-- Eight rounds on a register XORed with a byte at its top: the rounds of the top byte, XORed with the rest of the
register shifted by a byte. It is what makes one table look-up do the work of eight bit-steps. -/
theorem rounds_split {w : Nat} (h1 : 1 ≤ w) (h2 : w ≤ 32) (p A : Word) (b : Byte)
    (hA : ∀ i, w + crcShiftOf w ≤ i → A.getLsbD i = false) (i : Nat) (hi : i < w + crcShiftOf w) :
    (tableRounds w p 8 (A ^^^ (b.setWidth 32 <<< (w + crcShiftOf w - 8)))).getLsbD i =
      ((tableRounds w p 8 ((((A >>> (w + crcShiftOf w - 8)) ^^^
        b.setWidth 32) &&& 0xFF#32) <<< (w + crcShiftOf w - 8))).getLsbD i
        ^^ (decide (8 ≤ i) && A.getLsbD (i - 8))) := by
  have h3 : 8 ≤ w + crcShiftOf w ∧ w + crcShiftOf w ≤ 32 ∧ crcShiftOf w ≤ 7 := by unfold crcShiftOf; omega
  generalize hW : w + crcShiftOf w = W at *
  have hdec : A ^^^ (b.setWidth 32 <<< (W - 8)) =
      ((((A >>> (W - 8)) ^^^ b.setWidth 32) &&& 0xFF#32) <<< (W - 8)) ^^^ (A &&& maskOf (W - 8)) := by
    apply BitVec.eq_of_getLsbD_eq
    intro k hk
    simp only [BitVec.getLsbD_xor, BitVec.getLsbD_and, BitVec.getLsbD_shiftLeft, BitVec.getLsbD_ushiftRight,
      getLsbD_maskOf (show W - 8 ≤ 32 by omega), BitVec.getLsbD_setWidth, hk]
    by_cases hk2 : k < W - 8
    · simp [hk2]
    · have h4 : W - 8 + (k - (W - 8)) = k := by omega
      have h5 : k - (W - 8) < 32 := by omega
      have getLsbD_ff : (0xFF#32).getLsbD (k - (W - 8)) = decide (k - (W - 8) < 8) := by
        have := getLsbD_maskOf (show 8 ≤ 32 by omega) (k - (W - 8))
        simpa [maskOf] using this
      rw [getLsbD_ff]
      by_cases h6 : k - (W - 8) < 8
      · simp [hk2, h4, h5, h6]
      · have : b.getLsbD (k - (W - 8)) = false := BitVec.getLsbD_of_ge _ _ (by omega)
        simp [hk2, h6, this, hA k (by omega)]
  rw [hdec, tableRounds_xor h1 h2, BitVec.getLsbD_xor]
  congr 1
  rw [tableRounds_low h1 h2]
  · rw [BitVec.getLsbD_shiftLeft, BitVec.getLsbD_and, getLsbD_maskOf (by omega)]
    by_cases h8 : 8 ≤ i
    · have a1 : i < 32 := by omega
      have a2 : ¬ i < 8 := by omega
      have a3 : i - 8 < W - 8 := by omega
      simp [h8, a1, a2, a3]
    · have a2 : i < 8 := by omega
      simp [h8, a2]
  · intro k hk1 hk2
    rw [BitVec.getLsbD_and, getLsbD_maskOf (by omega)]
    have : ¬ k < W - 8 := by omega
    simp [this]

/-- Bit `k` of an entry without reflection, by the rounds on its aligned index. -/
theorem getLsbD_tableEntry_false {w : Nat} (h2 : w ≤ 32) (p : Word) (x : Word) (k : Nat) :
    (tableEntry w p false x.toNat).getLsbD k =
      (decide (k < w) && (tableRounds w p 8 (x <<< (w + crcShiftOf w - 8))).getLsbD (crcShiftOf w + k)) := by
  simp only [tableEntry, tableSeed, Bool.false_eq_true, if_false, BitVec.ofNat_toNat, BitVec.setWidth_eq,
    BitVec.getLsbD_and, getLsbD_maskOf h2, BitVec.getLsbD_ushiftRight]
  rw [Bool.and_comm]

/-- Bit `k` of an entry with reflection, by the rounds on its mirrored, aligned index. -/
theorem getLsbD_tableEntry_true {w : Nat} (h1 : 1 ≤ w) (h2 : w ≤ 32) (p : Word) (x : Word) {k : Nat} (hk : k < w) :
    (tableEntry w p true x.toNat).getLsbD k =
      (tableRounds w p 8 (mirror x 8 <<< (w + crcShiftOf w - 8))).getLsbD (w + crcShiftOf w - 1 - k) := by
  have h3 : w + crcShiftOf w ≤ 32 := by unfold crcShiftOf; omega
  simp only [tableEntry, tableSeed, if_true, BitVec.ofNat_toNat, BitVec.setWidth_eq, BitVec.getLsbD_and,
    getLsbD_maskOf h2, BitVec.getLsbD_ushiftRight, BitVec.getLsbD_shiftLeft, getLsbD_mirror _ h2]
  have a1 : crcShiftOf w + k < 32 := by omega
  have a2 : ¬ crcShiftOf w + k < crcShiftOf w := by omega
  have a3 : crcShiftOf w + k - crcShiftOf w = k := by omega
  have a4 : crcShiftOf w + (w - 1 - k) = w + crcShiftOf w - 1 - k := by omega
  simp [a1, a3, a4, hk]

/-- MASK of a valid engine as a word. -/
theorem Engine.Valid.mask_eq_maskOf {e : Engine} (h : e.Valid) : e.mask = maskOf e.w := by
  apply BitVec.eq_of_toNat_eq; rw [h.mask_eq, toNat_maskOf h.width_le]

/-- MSB_MASK of a valid engine as a word. -/
theorem Engine.Valid.msbMask_eq_shift {e : Engine} (h : e.Valid) : e.msbMask = 1#32 <<< (e.w - 1) := by
  apply BitVec.eq_of_toNat_eq; rw [h.msbMask_eq]; exact (toNat_msbMaskOf h.width_pos h.width_le).symm

/-- SHIFTED_XOR_IN of a valid engine as a word. -/
theorem Engine.Valid.shiftedXorIn_eq_shift {e : Engine} (h : e.Valid) : e.shiftedXorIn = e.xorIn <<< e.cs := by
  apply BitVec.eq_of_toNat_eq
  rw [h.shiftedXorIn_eq, BitVec.toNat_shiftLeft, Nat.shiftLeft_eq, Nat.mod_eq_of_lt]
  have := h.xorIn_lt
  have hc : e.w + e.cs ≤ 32 := by have := h.crcShift_eq; have := h.width_pos; have := h.width_le; omega
  calc _ < 2 ^ e.w * 2 ^ e.cs := Nat.mul_lt_mul_of_pos_right this (Nat.two_pow_pos _)
    _ = 2 ^ (e.w + e.cs) := (Nat.pow_add ..).symm
    _ ≤ 2 ^ 32 := Nat.pow_le_pow_right (by decide) hc

/-- Bit `i` of a reference bit-step (R151). -/
theorem getLsbD_refBit {e : Engine} (h : e.Valid) (b : Byte) (acc : Word) (k i : Nat) :
    (refBit e b acc k).getLsbD i =
      (decide (i < e.w) && ((decide (1 ≤ i) && acc.getLsbD (i - 1)) ^^ ((acc.getLsbD (e.w - 1) ^^ b.getLsbD k) && e.poly.getLsbD i))) := by
  have hw := h.width_pos
  have hw2 := h.width_le
  have hk : e.w - 1 < 32 := by omega
  have htop : ((if b.getLsbD k = true then (acc &&& e.msbMask) ^^^
    e.msbMask else acc &&& e.msbMask) ≠ 0#32) ↔ (acc.getLsbD (e.w - 1) ^^ b.getLsbD k) = true := by
    rw [h.msbMask_eq_shift]
    have h1 := and_twoPow_ne_zero acc hk
    cases hb : b.getLsbD k
    · simpa using h1
    · have h2 : (acc &&& 1#32 <<< (e.w - 1)) ^^^ 1#32 <<< (e.w - 1) = (~~~acc) &&& 1#32 <<< (e.w - 1) := by
        apply BitVec.eq_of_getLsbD_eq
        intro j hj
        simp only [BitVec.getLsbD_xor, BitVec.getLsbD_and, BitVec.getLsbD_not]
        cases acc.getLsbD j <;> simp [hj]
      rw [if_pos rfl, h2, and_twoPow_ne_zero _ hk]
      simp [hk]
  unfold refBit
  simp only [htop, h.mask_eq_maskOf, BitVec.getLsbD_and, getLsbD_maskOf hw2]
  by_cases hi : i < e.w
  · have hi2 : i < 32 := by omega
    cases ht : (acc.getLsbD (e.w - 1) ^^ b.getLsbD k)
    · simp only [hi, Bool.false_eq_true, if_false, BitVec.getLsbD_shiftLeft]
      by_cases h0 : i = 0
      · simp [h0]
      · have : ¬ i < 1 := by omega
        have h1 : 1 ≤ i := by omega
        simp [this, hi2, h1]
    · simp only [hi, if_true, BitVec.getLsbD_shiftLeft, BitVec.getLsbD_xor]
      by_cases h0 : i = 0
      · simp [h0]
      · have : ¬ i < 1 := by omega
        have h1 : 1 ≤ i := by omega
        simp [this, hi2, h1]
  · simp [hi]

/-- After `j` bit-steps of the reference path, the register aligned with the top holds what `j` table rounds leave of
the register and the byte together, with the rest of the byte still above it. -/
theorem foldl_refBit_prefix {e : Engine} (h : e.Valid) (b : Byte) (acc : Word)
    (hacc : acc.toNat < 2 ^ e.w) (j : Nat) (hj : j ≤ 8) :
    let r := ((List.range j).map (7 - ·)).foldl (refBit e b) acc
    r.toNat < 2 ^ e.w ∧ ∀ i, i < e.w + crcShiftOf e.w →
      (tableRounds e.w e.poly j ((acc <<< crcShiftOf e.w) ^^^
        (b.setWidth 32 <<< (e.w + crcShiftOf e.w - 8)))).getLsbD i =
      ((r <<< crcShiftOf e.w) ^^^ (b.setWidth 32 <<< (e.w + crcShiftOf e.w - 8 + j))).getLsbD i := by
  have hw := h.width_pos
  have hw2 := h.width_le
  have h3 : 8 ≤ e.w + crcShiftOf e.w ∧ e.w + crcShiftOf e.w ≤ 32 ∧ crcShiftOf e.w ≤ 7 := by unfold crcShiftOf; omega
  generalize hcs : crcShiftOf e.w = cs at *
  induction j with
  | zero => simp [tableRounds, hacc]
  | succ j ih =>
    obtain ⟨ih1, ih2⟩ := ih (by omega)
    simp only [List.range_succ, List.map_append, List.map_cons, List.map_nil, List.foldl_append, List.foldl_cons,
      List.foldl_nil]
    generalize hr : List.foldl (refBit e b) acc (List.map (fun x => 7 - x) (List.range j)) = r at *
    refine ⟨?_, ?_⟩
    · unfold refBit
      rw [h.mask_eq_maskOf, toNat_and_maskOf hw2]
      exact Nat.mod_lt _ (Nat.two_pow_pos _)
    · intro i hi
      rw [tableRounds_succ_last, tableRound_eq hw hw2, hcs]
      have hi32 : i < 32 := by omega
      have htop := ih2 (e.w + cs - 1) (by omega)
      generalize hX : tableRounds e.w e.poly j ((acc <<< cs) ^^^ (b.setWidth 32 <<< (e.w + cs - 8))) = X at *
      have htop2 : X.getLsbD (e.w + cs - 1) = (r.getLsbD (e.w - 1) ^^ b.getLsbD (7 - j)) := by
        rw [htop]
        have a1 : e.w + cs - 1 < 32 := by omega
        have a2 : ¬ e.w + cs - 1 < cs := by omega
        have a3 : ¬ e.w + cs - 1 < e.w + cs - 8 + j := by omega
        have a4 : e.w + cs - 1 - cs = e.w - 1 := by omega
        have a5 : e.w + cs - 1 - (e.w + cs - 8 + j) = 7 - j := by omega
        have a6 : 7 - j < 32 := by omega
        simp only [BitVec.getLsbD_xor, BitVec.getLsbD_shiftLeft, BitVec.getLsbD_setWidth, a1, a2, a3, a4, a5, a6]
        simp
      rw [htop2]
      generalize htb : (r.getLsbD (e.w - 1) ^^ b.getLsbD (7 - j)) = tb at *
      simp only [BitVec.getLsbD_xor, BitVec.getLsbD_shiftLeft, getLsbD_refBit h, htb, hi32]
      have hprev : decide (1 ≤ i) = true → X.getLsbD (i - 1) = _ := fun h1 => ih2 (i - 1) (by omega)
      simp only [BitVec.getLsbD_xor, BitVec.getLsbD_shiftLeft, BitVec.getLsbD_setWidth] at hprev ⊢
      have hif : BitVec.getLsbD (if tb = true then e.poly <<< cs else 0#32) i =
        (tb && (decide (cs ≤ i) && e.poly.getLsbD (i - cs))) := by
        cases tb
        · simp
        · by_cases hc : cs ≤ i
          · have h5 : ¬ i < cs := by omega
            have h6 : i - cs < 32 := by omega
            simp [hc, hi32, h5, h6]
          · have : i < cs := by omega
            simp [hc, this]
      rw [hif]
      by_cases h0 : i = 0
      · subst h0
        have a1 : 0 < e.w + cs - 8 + (j + 1) := by omega
        by_cases hc : cs = 0
        · subst hc; simp [show 0 < e.w from by omega, show 0 < e.w - 8 + (j + 1) from by omega]
        · have : 0 < cs := by omega
          have : ¬ cs ≤ 0 := by omega
          simp [*]
      · rw [hprev (by simp; omega)]
        have a1 : i - 1 < 32 := by omega
        have a2 : ¬ i < 1 := by omega
        have a3 : (i - 1 < e.w + cs - 8 + j) ↔ (i < e.w + cs - 8 + (j + 1)) := by omega
        have a4 : i - 1 - (e.w + cs - 8 + j) = i - (e.w + cs - 8 + (j + 1)) := by omega
        simp only [a1, a2, a3, a4]
        have a5 : i - cs < e.w := by omega
        by_cases hc : cs ≤ i
        · have b1 : ¬ i < cs := by omega
          by_cases hc1 : cs = i
          · subst hc1
            have : cs - 1 < cs := by omega
            simp [this, show 0 < e.w from by omega]
            cases tb <;> simp [Bool.xor_comm]
          · have b2 : ¬ i - 1 < cs := by omega
            have b3 : i - 1 - cs = i - cs - 1 := by omega
            have b4 : 1 ≤ i - cs := by omega
            simp only [b1, b2, b3, b4, hc, a5]
            simp only [decide_true, decide_false, Bool.true_and, Bool.not_false]
            simp only [Bool.xor_assoc, Bool.xor_comm, Bool.xor_left_comm]
        · have b1 : i < cs := by omega
          have b2 : i - 1 < cs := by omega
          simp [b1, b2, hc]

/-- The eight bit-steps of the reference path are eight table rounds on the aligned register and the byte (R151). -/
theorem refLoop {e : Engine} (h : e.Valid) (b : Byte) (acc : Word) (hacc : acc.toNat < 2 ^ e.w) :
    let r := [7, 6, 5, 4, 3, 2, 1, 0].foldl (refBit e b) acc
    r.toNat < 2 ^ e.w ∧ ∀ i, i < e.w + crcShiftOf e.w →
      (tableRounds e.w e.poly 8 ((acc <<< crcShiftOf e.w) ^^^
        (b.setWidth 32 <<< (e.w + crcShiftOf e.w - 8)))).getLsbD i =
      (r <<< crcShiftOf e.w).getLsbD i := by
  have h8 := foldl_refBit_prefix h b acc hacc 8 (by omega)
  have h3 : 8 ≤ e.w + crcShiftOf e.w ∧ e.w + crcShiftOf e.w ≤ 32 ∧ crcShiftOf e.w ≤ 7 := by
    have := h.width_pos; have := h.width_le; unfold crcShiftOf; omega
  obtain ⟨h1, h2⟩ := h8
  refine ⟨h1, fun i hi => ?_⟩
  rw [h2 i hi]
  have a : i < e.w + crcShiftOf e.w - 8 + 8 := by omega
  rw [BitVec.getLsbD_xor, BitVec.getLsbD_shiftLeft (x := BitVec.setWidth 32 b)]
  simp [a]
  rfl

/-- The non-reflected table step is the reference step, shifted left by CRC_SHIFT (R38, R133, R151). -/
theorem nonreflected_step {e : Engine} (h : e.Valid) (hr : e.reflect = false) (acc : Word)
    (hacc : acc.toNat < 2 ^ e.w) (b : Byte) :
    stepNonreflected e (acc <<< e.cs) b = stepRef e acc b <<< e.cs := by
  have hw := h.width_pos
  have hw2 := h.width_le
  have hcs : e.cs = crcShiftOf e.w := h.crcShift_eq
  have h3 : 8 ≤ e.w + crcShiftOf e.w ∧ e.w + crcShiftOf e.w ≤ 32 ∧ crcShiftOf e.w ≤ 7 ∧ (crcShiftOf e.w =
    0 ∨ e.w + crcShiftOf e.w = 8) := by unfold crcShiftOf; omega
  obtain ⟨hlt, hbits⟩ := refLoop h b acc hacc
  have hA : ∀ i, e.w + crcShiftOf e.w ≤ i → (acc <<< crcShiftOf e.w).getLsbD i = false := by
    intro i hi
    rw [BitVec.getLsbD_shiftLeft, getLsbD_of_toNat_lt hacc (by omega)]; simp
  apply BitVec.eq_of_getLsbD_eq
  intro i hi
  simp only [stepNonreflected, stepRef, hr, Bool.false_eq_true, if_false, Engine.align, hcs]
  rw [h.table_eq _ (toNat_and_ff_lt _), hr]
  simp only [BitVec.getLsbD_and, BitVec.getLsbD_xor, h.mask_eq_maskOf, BitVec.getLsbD_shiftLeft (n :=
    crcShiftOf e.w) (x := maskOf e.w), getLsbD_maskOf hw2, hi]
  by_cases hc : i < crcShiftOf e.w
  · rw [BitVec.getLsbD_shiftLeft (n := crcShiftOf e.w) (i := i)]
    simp [hc]
  · by_cases hiw : i < e.w + crcShiftOf e.w
    · rw [← hbits i hiw, rounds_split hw hw2 _ _ _ hA i hiw, BitVec.getLsbD_shiftLeft (n := crcShiftOf e.w),
        getLsbD_tableEntry_false hw2]
      have a1 : i - crcShiftOf e.w < e.w := by omega
      have a2 : crcShiftOf e.w + (i - crcShiftOf e.w) = i := by omega
      rw [a2]
      have hsame : ((acc <<< crcShiftOf e.w) <<< (8 - crcShiftOf e.w)).getLsbD i =
        (decide (8 ≤ i) && (acc <<< crcShiftOf e.w).getLsbD (i - 8)) := by
        rw [← BitVec.shiftLeft_add, BitVec.getLsbD_shiftLeft, BitVec.getLsbD_shiftLeft]
        have a3 : crcShiftOf e.w + (8 - crcShiftOf e.w) = 8 := by omega
        rw [a3]
        by_cases h8 : 8 ≤ i
        · have a4 : ¬ i < 8 := by omega
          rcases h3.2.2.2 with h0 | h0
          · simp [h0, h8, hi, a4, show i - 8 < 32 by omega]
          · omega
        · simp [h8, show i < 8 by omega]
      rw [hsame]
      simp [hc, hi, a1]
    · rw [BitVec.getLsbD_shiftLeft (x := List.foldl _ _ _),
        getLsbD_of_toNat_lt hlt (by omega : e.w ≤ i - crcShiftOf e.w)]
      simp [show ¬ (i - crcShiftOf e.w < e.w) by omega]

/-- The reflected table step is the reference step, mirrored over WIDTH (R38, R132, R151). -/
theorem reflected_step {e : Engine} (h : e.Valid) (hr : e.reflect = true) (acc : Word)
    (hacc : acc.toNat < 2 ^ e.w) (b : Byte) :
    stepReflected e (mirror acc e.w) b = mirror (stepRef e acc b) e.w := by
  have hw := h.width_pos
  have hw2 := h.width_le
  have h3 : 8 ≤ e.w + crcShiftOf e.w ∧ e.w + crcShiftOf e.w ≤ 32 ∧ crcShiftOf e.w ≤ 7 ∧ (crcShiftOf e.w =
    0 ∨ e.w + crcShiftOf e.w = 8) := by unfold crcShiftOf; omega
  obtain ⟨hlt, hbits⟩ := refLoop h (mirrorByte b) acc hacc
  have hA : ∀ i, e.w + crcShiftOf e.w ≤ i → (acc <<< crcShiftOf e.w).getLsbD i = false := by
    intro i hi
    rw [BitVec.getLsbD_shiftLeft, getLsbD_of_toNat_lt hacc (by omega)]; simp
  have hidx : mirror ((mirror acc e.w ^^^ b.setWidth 32) &&& 0xFF#32) 8 =
      ((((acc <<< crcShiftOf e.w) >>> (e.w + crcShiftOf e.w - 8)) ^^^ (mirrorByte b).setWidth 32) &&& 0xFF#32) := by
    apply BitVec.eq_of_getLsbD_eq
    intro k hk
    simp only [getLsbD_mirror _ (show 8 ≤ 32 by omega), getLsbD_mirror _ hw2, BitVec.getLsbD_and,
      BitVec.getLsbD_xor, BitVec.getLsbD_setWidth, getLsbD_ff, BitVec.getLsbD_ushiftRight,
      BitVec.getLsbD_shiftLeft, getLsbD_mirrorByte, hk]
    by_cases hk8 : k < 8
    · have a1 : 8 - 1 - k < 32 := by omega
      have a2 : 8 - 1 - k < 8 := by omega
      have a3 : e.w + crcShiftOf e.w - 8 + k < 32 := by omega
      have a6 : 8 - 1 - k = 7 - k := by omega
      by_cases a4 : 7 - k < e.w
      · have a5 : ¬ e.w + crcShiftOf e.w - 8 + k < crcShiftOf e.w := by omega
        have a7 : e.w + crcShiftOf e.w - 8 + k - crcShiftOf e.w = e.w - 1 - (7 - k) := by omega
        simp only [hk8, a1, a2, a3, a6, a4, a5, a7]
        simp
      · have a5 : e.w + crcShiftOf e.w - 8 + k < crcShiftOf e.w := by omega
        simp only [hk8, a1, a2, a3, a6, a4, a5]
        simp
    · simp [hk8]
  apply BitVec.eq_of_getLsbD_eq
  intro i hi
  simp only [stepReflected, stepRef, hr, if_true]
  rw [h.table_eq _ (toNat_and_ff_lt _), hr]
  simp only [BitVec.getLsbD_and, BitVec.getLsbD_xor, h.mask_eq_maskOf, getLsbD_maskOf hw2, getLsbD_mirror _ hw2,
    BitVec.getLsbD_ushiftRight]
  by_cases hiw : i < e.w
  · rw [getLsbD_tableEntry_true hw hw2 _ _ hiw, hidx]
    have hb := hbits (e.w + crcShiftOf e.w - 1 - i) (by omega)
    rw [rounds_split hw hw2 _ _ _ hA _ (by omega)] at hb
    rw [BitVec.getLsbD_shiftLeft (x := List.foldl _ _ _)] at hb
    have a1 : e.w + crcShiftOf e.w - 1 - i < 32 := by omega
    have a2 : ¬ e.w + crcShiftOf e.w - 1 - i < crcShiftOf e.w := by omega
    have a3 : e.w + crcShiftOf e.w - 1 - i - crcShiftOf e.w = e.w - 1 - i := by omega
    simp only [a1, a2, a3, decide_true, decide_false, Bool.not_false, Bool.true_and] at hb
    rw [← hb]
    simp only [hiw, decide_true, Bool.and_true, Bool.true_and]
    congr 1
    rw [BitVec.getLsbD_shiftLeft]
    by_cases h8 : 8 + i < e.w
    · have b1 : 8 ≤ e.w + crcShiftOf e.w - 1 - i := by omega
      have b2 : e.w + crcShiftOf e.w - 1 - i - 8 < 32 := by omega
      have b3 : ¬ e.w + crcShiftOf e.w - 1 - i - 8 < crcShiftOf e.w := by omega
      have b4 : e.w + crcShiftOf e.w - 1 - i - 8 - crcShiftOf e.w = e.w - 1 - (8 + i) := by omega
      simp only [h8, b1, b2, b3, b4]; simp
    · by_cases b1 : 8 ≤ e.w + crcShiftOf e.w - 1 - i
      · have b3 : e.w + crcShiftOf e.w - 1 - i - 8 < crcShiftOf e.w := by omega
        simp [h8, b3]
      · simp [h8, b1]
  · simp [hiw]

/-- The reference step stays below `2^WIDTH`. -/
theorem stepRef_lt {e : Engine} (h : e.Valid) (acc : Word)
    (hacc : acc.toNat < 2 ^ e.w) (b : Byte) : (stepRef e acc b).toNat < 2 ^ e.w :=
  (refLoop h _ acc hacc).1

/-- Shifting left by CRC_SHIFT and back keeps a register below `2^WIDTH`. -/
theorem shift_unshift {e : Engine} (h : e.Valid) (acc : Word)
    (hacc : acc.toNat < 2 ^ e.w) : (acc <<< e.cs) >>> e.cs = acc := by
  have hc : e.w + e.cs ≤ 32 := by have := h.crcShift_eq; have := h.width_pos; have := h.width_le; omega
  apply BitVec.eq_of_getLsbD_eq
  intro i hi
  rw [BitVec.getLsbD_ushiftRight, BitVec.getLsbD_shiftLeft]
  by_cases hi2 : i < e.w
  · have : e.cs + i < 32 := by omega
    simp [this]
  · rw [show e.cs + i - e.cs = i by omega, getLsbD_of_toNat_lt hacc (by omega : e.w ≤ i)]; simp

/-- The fast step is the non-reflected step, on a register below `2^8` (R134, R135). -/
theorem fast_step {e : Engine} (h : e.Valid) (hf : e.variant = .fast) (acc : Word)
    (hacc : acc.toNat < 2 ^ 8) (b : Byte) :
    stepFast e acc b = stepNonreflected e acc b := by
  have hv := h.variant_eq
  rw [hf, variantOf] at hv
  split at hv
  · cases hv
  · split at hv
    · rename_i h8
      have hcs : e.cs = 0 := by have := h.crcShift_eq; omega
      have hidx : ((acc ^^^ b.setWidth 32) &&& 0xFF#32) = acc ^^^ b.setWidth 32 := by
        apply BitVec.eq_of_getLsbD_eq
        intro k hk
        rw [BitVec.getLsbD_and, getLsbD_ff, BitVec.getLsbD_xor, BitVec.getLsbD_setWidth]
        by_cases hk8 : k < 8
        · simp [hk8]
        · rw [getLsbD_of_toNat_lt hacc (by omega : 8 ≤ k), BitVec.getLsbD_of_ge b k (by omega)]; simp
      simp only [stepFast, stepNonreflected, hcs, Engine.align, h8.1]
      simp only [Nat.add_zero, Nat.sub_self, BitVec.ushiftRight_zero, BitVec.shiftLeft_zero, Nat.sub_zero]
      rw [hidx]
      have hlt : (acc ^^^ b.setWidth 32).toNat < 256 := hidx ▸ toNat_and_ff_lt _
      rw [h.table_eq _ hlt, h.mask_eq_maskOf, h8.1]
      apply BitVec.eq_of_getLsbD_eq
      intro k hk
      simp only [tableEntry, BitVec.getLsbD_and, BitVec.getLsbD_xor, getLsbD_maskOf (show 8 ≤ 32 by omega),
        BitVec.getLsbD_shiftLeft]
      by_cases hk8 : k < 8 <;> simp [hk8]
    · cases hv

end Sys2Proof.Machine
end

