-- ==== Sys2Proof/Laws/Decode.lean ====
section
/-! SUPPORT. Laws/Decode.lean: a field in its place, the fields of a packed word, and a word from its fields (R71). -/

namespace Sys2Proof

/-- Bit `i` of a placed field. -/
theorem getLsbD_placeField {n : Nat} (lo : Nat) (v : BitVec n) (i : Nat) :
    (placeField lo v).getLsbD i = (decide (i < 32) && decide (lo ≤ i) && v.getLsbD (i - lo)) := by
  by_cases h1 : i < 32 <;> by_cases h2 : lo ≤ i
  · have h4 : ¬ i < lo := by omega
    simp [placeField, h1, h2, h4]
  · have h4 : i < lo := by omega
    simp [placeField, h2, h4]
  · simp [placeField, h1]
  · simp [placeField, h1]

/-- Bit `i` of a packed word: OPCODE, A, F, then zeros (R71). -/
theorem getLsbD_packWord (f : Bool) (a op : Byte) (i : Nat) :
    (packWord f a op).getLsbD i =
      if i < 8 then op.getLsbD i else if i < 16 then a.getLsbD (i - 8) else decide (i = 16) && f := by
  simp only [packWord, BitVec.getLsbD_or, getLsbD_placeField, BitVec.getLsbD_ofBool]
  by_cases h1 : i < 8
  · have h2 : i < 32 := by omega
    have h3 : ¬ 8 ≤ i := by omega
    have h4 : ¬ 16 ≤ i := by omega
    simp [h1, h2, h3, h4]
  · by_cases h2 : i < 16
    · have h3 : i < 32 := by omega
      have h4 : 8 ≤ i := by omega
      have h5 : ¬ 16 ≤ i := by omega
      simp [h1, h2, h3, h4, h5]
    · have h3 : BitVec.getLsbD op i = false := BitVec.getLsbD_of_ge op i (by omega)
      have h4 : BitVec.getLsbD a (i - 8) = false := BitVec.getLsbD_of_ge a (i - 8) (by omega)
      by_cases h5 : i = 16
      · simp [h5]
      · have h6 : ¬ i - 16 = 0 := by omega
        simp [h1, h2, h3, h4, h5, h6]

@[simp] theorem opcodeField_packWord (f : Bool) (a op : Byte) : opcodeField (packWord f a op) = op := by
  apply BitVec.eq_of_getLsbD_eq
  intro i hi
  simp [opcodeField, getLsbD_packWord, hi]

@[simp] theorem operandField_packWord (f : Bool) (a op : Byte) : operandField (packWord f a op) = a := by
  apply BitVec.eq_of_getLsbD_eq
  intro i hi
  have h1 : ¬ 8 + i < 8 := by omega
  have h2 : 8 + i < 16 := by omega
  simp [operandField, getLsbD_packWord, hi, h1, h2]

@[simp] theorem flagField_packWord (f : Bool) (a op : Byte) : flagField (packWord f a op) = f := by
  rw [flagField, getLsbD_packWord]
  simp

@[simp] theorem reservedField_packWord (f : Bool) (a op : Byte) : reservedField (packWord f a op) = 0#15 := by
  apply BitVec.eq_of_getLsbD_eq
  intro i hi
  have h1 : ¬ 17 + i < 8 := by omega
  have h2 : ¬ 17 + i < 16 := by omega
  have h3 : ¬ 17 + i = 16 := by omega
  simp [reservedField, getLsbD_packWord, hi, h1, h2, h3]

/-- A word whose RSV is zero is the word of its other three fields (R71). -/
theorem packWord_fields {cmd : Word} (h : reservedField cmd = 0#15) :
    packWord (flagField cmd) (operandField cmd) (opcodeField cmd) = cmd := by
  apply BitVec.eq_of_getLsbD_eq
  intro i hi
  rw [getLsbD_packWord]
  by_cases h1 : i < 8
  · simp [opcodeField, h1]
  · by_cases h2 : i < 16
    · have h3 : i - 8 < 8 := by omega
      have h4 : 8 + (i - 8) = i := by omega
      simp [operandField, h1, h2, h3, h4]
    · by_cases h5 : i = 16
      · simp [flagField, h5]
      · have h6 : i - 17 < 15 := by omega
        have h7 : 17 + (i - 17) = i := by omega
        have h8 : cmd.getLsbD i = false := by
          have h9 := congrArg (fun x => x.getLsbD (i - 17)) h
          simpa [reservedField, h6, h7] using h9
        simp [h1, h2, h5, h8]

/-- Two words are equal when their four fields are (R71). -/
theorem word_eq_iff_fields {x y : Word} :
    x = y ↔ opcodeField x = opcodeField y ∧ operandField x = operandField y ∧ flagField x = flagField y ∧
      reservedField x = reservedField y := by
  constructor
  · rintro rfl
    exact ⟨rfl, rfl, rfl, rfl⟩
  · rintro ⟨h1, h2, h3, h4⟩
    apply BitVec.eq_of_getLsbD_eq
    intro i hi
    by_cases c1 : i < 8
    · have h := congrArg (fun v => v.getLsbD i) h1
      simpa [opcodeField, c1] using h
    · by_cases c2 : i < 16
      · have h := congrArg (fun v => v.getLsbD (i - 8)) h2
        have e : 8 + (i - 8) = i := by omega
        have e2 : i - 8 < 8 := by omega
        simpa [operandField, e, e2] using h
      · by_cases c3 : i = 16
        · subst c3
          exact h3
        · have h := congrArg (fun v => v.getLsbD (i - 17)) h4
          have e : 17 + (i - 17) = i := by omega
          have e2 : i - 17 < 15 := by omega
          simpa [reservedField, e, e2] using h

@[simp] theorem opcodeField_and (x y : Word) : opcodeField (x &&& y) = opcodeField x &&& opcodeField y := by
  apply BitVec.eq_of_getLsbD_eq; intro i hi; simp [opcodeField, hi]

@[simp] theorem operandField_and (x y : Word) : operandField (x &&& y) = operandField x &&& operandField y := by
  apply BitVec.eq_of_getLsbD_eq; intro i hi; simp [operandField, hi]

@[simp] theorem flagField_and (x y : Word) : flagField (x &&& y) = (flagField x && flagField y) := by
  simp [flagField]

@[simp] theorem reservedField_and (x y : Word) : reservedField (x &&& y) = reservedField x &&& reservedField y := by
  apply BitVec.eq_of_getLsbD_eq; intro i hi; simp [reservedField, hi]

end Sys2Proof
end

