-- ==== Sys2Proof/Laws/Engine.lean ====
section
/-! SUPPORT. Laws/Engine.lean: the engine of a masked parameter set: its width and shift as numbers, and its validity. -/

namespace Sys2Proof.Machine

theorem build_w {w : Nat} (h : w ≤ 32) (r : Bool) (p xi xo : Word) : (Engine.build w r p xi xo).w = w := by
  show (BitVec.ofNat 6 w).toNat = w
  rw [BitVec.toNat_ofNat]
  exact Nat.mod_eq_of_lt (by omega)

theorem build_cs {w : Nat} (h1 : 1 ≤ w) (r : Bool) (p xi xo : Word) :
    (Engine.build w r p xi xo).cs = crcShiftOf w := by
  show (BitVec.ofNat 3 (crcShiftOf w)).toNat = crcShiftOf w
  rw [BitVec.toNat_ofNat]
  exact Nat.mod_eq_of_lt (by unfold crcShiftOf; omega)

theorem toNat_shiftLeft_of_fits {v : Word} {w c : Nat} (hv : v.toNat < 2 ^ w) (h : w + c ≤ 32) :
    (v <<< c).toNat = v.toNat * 2 ^ c := by
  rw [BitVec.toNat_shiftLeft, Nat.shiftLeft_eq]
  apply Nat.mod_eq_of_lt
  calc v.toNat * 2 ^ c < 2 ^ w * 2 ^ c := Nat.mul_lt_mul_of_pos_right hv (Nat.two_pow_pos _)
    _ = 2 ^ (w + c) := (Nat.pow_add ..).symm
    _ ≤ 2 ^ 32 := Nat.pow_le_pow_right (by decide) h

/-- The engine of a parameter set that fits a legal width is valid (R32 to R34, R105, R106). -/
theorem build_valid {w : Nat} (h1 : 1 ≤ w) (h2 : w ≤ 32) (r : Bool) {p xi xo : Word} (hp : p.toNat < 2 ^ w)
    (hi : xi.toNat < 2 ^ w) (ho : xo.toNat < 2 ^ w) : (Engine.build w r p xi xo).Valid := by
  have hw := build_w h2 r p xi xo
  have hcs := build_cs h1 r p xi xo
  constructor <;> try rw [hw]
  · exact h1
  · exact h2
  · exact hp
  · exact hi
  · exact ho
  · exact toNat_maskOf h2
  · exact toNat_msbMaskOf h1 h2
  · exact hcs
  · rfl
  · rw [hcs]
    exact toNat_shiftLeft_of_fits hi (by unfold crcShiftOf; omega)
  · rfl
  · intro i hi
    exact tableRead_tableOf _ hi

/-- The parameters of `configuredEngine` are the operands modulo `2^w` (R101). -/
theorem configuredEngine_params {w : Nat} (h2 : w ≤ 32) (r : Bool) (s : State) :
    (configuredEngine w r s).poly.toNat = s.arg0.toNat % 2 ^ w ∧
      (configuredEngine w r s).xorIn.toNat = s.arg1.toNat % 2 ^ w ∧
      (configuredEngine w r s).xorOut.toNat = s.arg2.toNat % 2 ^ w :=
  ⟨toNat_and_maskOf h2 _, toNat_and_maskOf h2 _, toNat_and_maskOf h2 _⟩

/-- CONFIGURE builds a valid engine from whatever ARG0 to ARG2 hold. -/
theorem configuredEngine_valid {w : Nat} (h1 : 1 ≤ w) (h2 : w ≤ 32) (r : Bool) (s : State) :
    (configuredEngine w r s).Valid := by
  have := Nat.two_pow_pos w
  apply build_valid h1 h2 <;> rw [toNat_and_maskOf h2] <;> exact Nat.mod_lt _ this

end Sys2Proof.Machine
end

