-- ==== Sys2Proof/Laws/Exec.lean ====
section
/-! SUPPORT. Laws/Exec.lean: for each command, everything it can do, once: the cases of its next state. -/

namespace Sys2Proof.Machine

theorem execMirror_cases {n : Nat} {s t : State} (h : execMirror n s = .next t) :
    (32 < n ∧ t = s.setErr .invalidOperand) ∨
      (n ≤ 32 ∧ t = (s.setResult (mirror s.arg0 n)).setErr .ok) := by
  unfold execMirror at h
  split at h
  · exact .inl ⟨‹_›, by simpa using h.symm⟩
  · exact .inr ⟨by omega, by simpa using h.symm⟩

theorem execConfigure_cases {w : Nat} {r : Bool} {s t : State} (h : execConfigure w r s = .next t) :
    ((w < 1 ∨ 32 < w) ∧ t = s.setErr .invalidWidth) ∨
      (1 ≤ w ∧ w ≤ 32 ∧ s.msgOpen = true ∧ t = s.setErr .messageOpen) ∨
      (1 ≤ w ∧ w ≤ 32 ∧ s.msgOpen = false ∧ t = (s.install (configuredEngine w r s)).setErr .ok) := by
  unfold execConfigure at h
  split at h
  · exact .inl ⟨‹_›, by simpa using h.symm⟩
  · split at h
    · exact .inr (.inl ⟨by omega, by omega, ‹_›, by simpa using h.symm⟩)
    · exact .inr (.inr ⟨by omega, by omega, Bool.not_eq_true _ ▸ ‹¬_ = true›, by simpa using h.symm⟩)

theorem execTblrd_cases {i : Nat} {s t : State} (h : execTblrd i s = .next t) :
    (s.cfgValid = true ∧ t = (s.setResult (tableRead s.engine.table i)).setErr .ok) ∨
      (s.cfgValid = false ∧ t = s.setErr .notConfigured) := by
  unfold execTblrd at h
  split at h
  · exact .inl ⟨‹_›, by simpa using h.symm⟩
  · exact .inr ⟨Bool.not_eq_true _ ▸ ‹¬_ = true›, by simpa using h.symm⟩

theorem openOn_cases {p : Path} {s t : State} (h : openOn p s = .next t) :
    (s.cfgValid = true ∧ t = (s.openMessage p (initOn p s.engine)).setErr .ok) ∨
      (s.cfgValid = false ∧ t = s.setErr .notConfigured) := by
  unfold openOn at h
  split at h
  · exact .inl ⟨‹_›, by simpa using h.symm⟩
  · exact .inr ⟨Bool.not_eq_true _ ▸ ‹¬_ = true›, by simpa using h.symm⟩

theorem execByte_cases {b : Byte} {s t : State} (h : execByte b s = .next t) :
    (s.msgOpen = true ∧ t = (s.setAcc (stepOn s.path s.engine s.acc b)).setErr .ok) ∨
      (s.msgOpen = false ∧ t = s.setErr .noMessage) := by
  unfold execByte at h
  split at h
  · exact .inl ⟨‹_›, by simpa using h.symm⟩
  · exact .inr ⟨Bool.not_eq_true _ ▸ ‹¬_ = true›, by simpa using h.symm⟩

theorem execFinal_cases {s t : State} (h : execFinal s = .next t) :
    (s.msgOpen = true ∧ t = ((s.setResult (finOn s.path s.engine s.acc)).closeMessage).setErr .ok) ∨
      (s.msgOpen = false ∧ t = s.setErr .noMessage) := by
  unfold execFinal at h
  split at h
  · exact .inl ⟨‹_›, by simpa using h.symm⟩
  · exact .inr ⟨Bool.not_eq_true _ ▸ ‹¬_ = true›, by simpa using h.symm⟩

/-! ### What a command answers, condition by condition -/

theorem execMirror_of_le {n : Nat} (h : n ≤ 32) (s : State) :
    execMirror n s = .next ((s.setResult (mirror s.arg0 n)).setErr .ok) := if_neg (by omega)

theorem execMirror_of_gt {n : Nat} (h : 32 < n) (s : State) : execMirror n s = .next (s.setErr .invalidOperand) :=
    if_pos h

theorem execConfigure_of_width {w : Nat} (h : w < 1 ∨ 32 < w) (r : Bool) (s : State) :
    execConfigure w r s = .next (s.setErr .invalidWidth) := if_pos h

theorem execConfigure_of_open {w : Nat} (h1 : 1 ≤ w) (h2 : w ≤ 32) (r : Bool) {s : State} (h : s.msgOpen = true) :
    execConfigure w r s = .next (s.setErr .messageOpen) :=
  (if_neg (by omega)).trans (if_pos h)

theorem execConfigure_of_idle {w : Nat} (h1 : 1 ≤ w) (h2 : w ≤ 32) (r : Bool) {s : State} (h : s.msgOpen = false) :
    execConfigure w r s = .next ((s.install (configuredEngine w r s)).setErr .ok) :=
  (if_neg (by omega)).trans (if_neg (by simp [h]))

theorem execTblrd_of_valid {s : State} (h : s.cfgValid = true) (i : Nat) :
    execTblrd i s = .next ((s.setResult (tableRead s.engine.table i)).setErr .ok) := if_pos h

theorem execTblrd_of_invalid {s : State} (h : s.cfgValid = false) (i : Nat) :
    execTblrd i s = .next (s.setErr .notConfigured) := if_neg (by simp [h])

theorem openOn_of_valid {s : State} (h : s.cfgValid = true) (p : Path) :
    openOn p s = .next ((s.openMessage p (initOn p s.engine)).setErr .ok) := if_pos h

theorem openOn_of_invalid {s : State} (h : s.cfgValid = false) (p : Path) : openOn p s =
    .next (s.setErr .notConfigured) :=
  if_neg (by simp [h])

theorem execByte_of_open {s : State} (h : s.msgOpen = true) (b : Byte) :
    execByte b s = .next ((s.setAcc (stepOn s.path s.engine s.acc b)).setErr .ok) := if_pos h

theorem execByte_of_idle {s : State} (h : s.msgOpen = false) (b : Byte) : execByte b s = .next (s.setErr .noMessage) :=
  if_neg (by simp [h])

theorem execFinal_of_open {s : State} (h : s.msgOpen = true) :
    execFinal s = .next (((s.setResult (finOn s.path s.engine s.acc)).closeMessage).setErr .ok) := if_pos h

theorem execFinal_of_idle {s : State} (h : s.msgOpen = false) : execFinal s = .next (s.setErr .noMessage) :=
  if_neg (by simp [h])

/-! ### Every command, every word -/

/-- The command a path's message opens with runs `openOn` (R161, R162). -/
theorem exec_initT (s : State) : exec .initT s = openOn .table s := rfl

theorem exec_initN (s : State) : exec .initN s = openOn .reference s := rfl

/-- No command stops: each one answers a next state from every state (R180). -/
theorem exec_answers (i : Instr) (s : State) : ∃ t, exec i s = .next t := by
  cases i <;> simp only [exec, execConfigure, execInitT, execInitN, openOn, execByte, execFinal, execMirror,
    execTblrd] <;>
    (repeat' split) <;> exact ⟨_, rfl⟩

/-- A word runs its command, or raises ILLEGAL_COMMAND (R80). -/
theorem execute_cases {cmd : Word} {s t : State} (h : execute cmd s = .next t) :
    (∃ d, decode cmd = .illegal d ∧ t = s.setErr .illegalCommand) ∨ ∃ i, decode cmd = .command i ∧ exec i s =
      .next t := by
  unfold execute at h
  split at h
  · exact .inl ⟨_, ‹_›, by simpa using h.symm⟩
  · exact .inr ⟨_, ‹_›, h⟩

theorem execute_of_decode {cmd : Word} {i : Instr} (h : decode cmd = .command i) (s : State) : execute cmd s =
    exec i s := by
  simp [execute, h]

theorem execute_of_illegal {cmd : Word} {d : DecodeError} (h : decode cmd = .illegal d) (s : State) :
    execute cmd s = .next (s.setErr .illegalCommand) := by
  simp [execute, h]

theorem execute_answers (cmd : Word) (s : State) : ∃ t, execute cmd s = .next t := by
  cases h : decode cmd with
  | illegal d => exact ⟨_, execute_of_illegal h s⟩
  | command i => exact (execute_of_decode h s) ▸ exec_answers i s

end Sys2Proof.Machine
end

