-- ==== Sys2Proof/Laws/PerInstr.lean ====
section
/-! SUPPORT. Laws/PerInstr.lean: the per-command family TableRow: a command's word is of exactly one opcode row, the
one with its mnemonic (R74). -/

namespace Sys2Proof.Laws.TableRow

/-- The mnemonics of the rows that cover a word. -/
def rowNames (cmd : Word) : List String := (opcodeTable.filter (fun r => r.covers cmd)).map OpcodeRow.mnemonic

/-- The rows of R74 that cover the command's word are the one row with its mnemonic. -/
def Statement (i : Instr) : Prop := rowNames (encode i) = [i.mnemonic]

theorem rowNames_configure : ∀ (f : Bool) (a : Byte), rowNames (packWord f a 0x01#8) = ["CONFIGURE"] := by
  decide +kernel

theorem rowNames_byte : ∀ a : Byte, rowNames (packWord false a 0x03#8) = ["BYTE"] := by decide +kernel

theorem rowNames_mirror : ∀ a : Byte, rowNames (packWord false a 0x05#8) = ["MIRROR"] := by decide +kernel

theorem rowNames_tblrd : ∀ a : Byte, rowNames (packWord false a 0x06#8) = ["TBLRD"] := by decide +kernel

theorem configure (width : Nat) (reflect : Bool) : Statement (.configure width reflect) :=
  rowNames_configure reflect (BitVec.ofNat 8 width)

theorem initT : Statement .initT := rfl

theorem initN : Statement .initN := rfl

theorem byte (b : Byte) : Statement (.byte b) := rowNames_byte b

theorem final : Statement .final := rfl

theorem mirror (n : Nat) : Statement (.mirror n) := rowNames_mirror (BitVec.ofNat 8 n)

theorem tblrd (i : Nat) : Statement (.tblrd i) := rowNames_tblrd (BitVec.ofNat 8 i)

end Sys2Proof.Laws.TableRow
end

