-- ==== Sys2Proof/Laws/Step.lean ====
section
/-! SUPPORT. Laws/Step.lean: everything one step can do, once. -/

namespace Sys2Proof.Machine

@[simp] theorem readReg_setBus (r : Reg) (s : State) (q : List HostEvent) (d : Option Word) :
    readReg r (s.setBus q d) = readReg r s := by cases r <;> rfl

@[simp] theorem setBus_setBus (s : State) (q q' : List HostEvent) (d d' : Option Word) :
    (s.setBus q d).setBus q' d' = s.setBus q' d' := rfl

theorem step_idle {s : State} (h : s.pending = []) : step s = .next s := by simp [step, h]

theorem step_event {s : State} {ev : HostEvent} {rest : List HostEvent} (h : s.pending = ev :: rest) :
    step s = perform ev (s.setBus rest none) := by simp [step, h]

/-- A host write to CMD executes its word (R55). -/
theorem step_cmd {s : State} {v : Word} {rest : List HostEvent}
    (h : s.pending = .write Reg.cmd.offset .word v :: rest) : step s = execute v (s.setBus rest none) := by
  rw [step_event h]
  rfl

/-- A supported host read: the register's value on the bus and nothing else (R56). -/
theorem hostRead_cases {off : BitVec 8} {width : AccessWidth} {s t : State} (h : hostRead off width s = .next t) :
    ∃ r, isWordAccess off width = true ∧ regAt off = some r ∧ t = s.setBus s.pending (some (readReg r s)) := by
  unfold hostRead at h
  split at h
  · split at h
    · cases h
    · exact ⟨_, ‹_›, ‹_›, by simpa using h.symm⟩
  · cases h

/-- A supported host write runs `writeReg` on the register at its offset. -/
theorem hostWrite_cases {off : BitVec 8} {width : AccessWidth} {v : Word} {s t : State}
    (h : hostWrite off width v s = .next t) :
    ∃ r, isWordAccess off width = true ∧ regAt off = some r ∧ writeReg r v s = .next t := by
  unfold hostWrite at h
  split at h
  · split at h
    · cases h
    · exact ⟨_, ‹_›, ‹_›, h⟩
  · cases h

/-- A write to an assigned register executes a command, stores an operand, or is ignored (R54, R55, R57). -/
theorem writeReg_cases {r : Reg} {v : Word} {s t : State} (h : writeReg r v s = .next t) :
    (r = .cmd ∧ execute v s = .next t) ∨ (r = .arg0 ∧ t = s.setArg0 v) ∨ (r = .arg1 ∧ t = s.setArg1 v) ∨
      (r = .arg2 ∧ t = s.setArg2 v) ∨ (r ≠ .cmd ∧ r ≠ .arg0 ∧ r ≠ .arg1 ∧ r ≠ .arg2 ∧ t = s) := by
  cases r <;> simp only [writeReg, Host.Outcome.next.injEq] at h <;> simp [h]

/-- One step, every case: idle, reset, a read, an ignored write, an operand write, an illegal word, a command. -/
theorem step_cases {s t : State} (h : step s = .next t) :
    (s.pending = [] ∧ t = s) ∨
    ∃ ev rest, s.pending = ev :: rest ∧
      ((ev = .reset ∧ t = State.reset.setBus rest none) ∨
       (∃ off r, ev = .read off .word ∧ regAt off = some r ∧ t = s.setBus rest (some (readReg r s))) ∨
       (∃ off r v, ev = .write off .word v ∧ regAt off = some r ∧
          ((r = .cmd ∧ execute v (s.setBus rest none) = .next t) ∨
           (r = .arg0 ∧ t = (s.setBus rest none).setArg0 v) ∨ (r = .arg1 ∧ t = (s.setBus rest none).setArg1 v) ∨
           (r = .arg2 ∧ t = (s.setBus rest none).setArg2 v) ∨
           (r ≠ .cmd ∧ r ≠ .arg0 ∧ r ≠ .arg1 ∧ r ≠ .arg2 ∧ t = s.setBus rest none)))) := by
  cases hp : s.pending with
  | nil => exact .inl ⟨rfl, by simpa [step_idle hp] using h.symm⟩
  | cons ev rest =>
    refine .inr ⟨ev, rest, rfl, ?_⟩
    rw [step_event hp] at h
    cases ev with
    | reset => exact .inl ⟨rfl, by simpa [perform] using h.symm⟩
    | read off width =>
      obtain ⟨r, hw, hr, rfl⟩ := hostRead_cases h
      cases width <;> simp [isWordAccess] at hw
      exact .inr (.inl ⟨off, r, rfl, hr, by simp⟩)
    | write off width v =>
      obtain ⟨r, hw, hr, hwr⟩ := hostWrite_cases h
      cases width <;> simp [isWordAccess] at hw
      exact .inr (.inr ⟨off, r, v, rfl, hr, writeReg_cases hwr⟩)

end Sys2Proof.Machine
end

