-- ==== Sys2Proof/Laws/Run.lean ====
section
/-! SUPPORT. Laws/Run.lean: runs taken apart step by step, the queue and the bus fields under a command, and the event
of a command. -/

namespace Sys2Proof.Machine

theorem core_run_of_step {M : Host.Core} {s u : M.State} (h : M.step s = .next u) (k : Nat) :
    M.run (k + 1) s = M.run k u := by simp [Host.Core.run, h]

theorem core_run_of_refused {M : Host.Core} {s : M.State} {r : M.Refusal} (h : M.step s = .refused r) (k : Nat) :
    M.run (k + 1) s = .refused r := by simp [Host.Core.run, h]

@[simp] theorem run_zero (s : State) : run 0 s = .next s := rfl

/-- A step that answers, and then the rest of the run. -/
theorem run_succ_of_step {s u : State} (h : step s = .next u) (k : Nat) : run (k + 1) s = run k u :=
  core_run_of_step (M := Sys2Proof.core) h k

theorem run_succ_of_refused {s : State} {r : Refusal} (h : step s = .refused r) (k : Nat) :
    run (k + 1) s = .refused r :=
  core_run_of_refused (M := Sys2Proof.core) h k

/-- A run of `k + 1` steps that answers is a step and a run of `k` steps. -/
theorem run_succ {k : Nat} {s t : State} (h : run (k + 1) s = .next t) : ∃ u, step s = .next u ∧ run k u = .next t := by
  cases hs : step s with
  | next u => exact ⟨u, rfl, run_succ_of_step hs k ▸ h⟩
  | fault r => cases r
  | refused r => rw [run_succ_of_refused hs] at h; cases h

/-- A run in two parts. -/
theorem run_add {s u : State} {j : Nat} (h : run j s = .next u) (k : Nat) : run (j + k) s = run k u := by
  induction j generalizing s with
  | zero => cases h; rw [Nat.zero_add]
  | succ j ih =>
    obtain ⟨v, hv, hr⟩ := run_succ h
    rw [Nat.succ_add, run_succ_of_step hv, ih hr]

/-- No command touches the queue or the bus: a command on another queue is the same command. -/
theorem exec_setBus {i : Instr} {s t : State} (h : exec i s = .next t) (q : List HostEvent) (d : Option Word) :
    exec i (s.setBus q d) = .next (t.setBus q d) := by
  cases i <;>
    simp only [exec, execConfigure, execInitT, execInitN, openOn, execByte, execFinal, execMirror, execTblrd,
      raise_eq_next, complete_eq_next] at h ⊢ <;>
    (repeat' split at h) <;> cases h <;> simp only [State.setBus_cfgValid, State.setBus_msgOpen, *, if_true,
      if_false] <;> first | done | rfl

/-- A command leaves the queue and the bus as they are. -/
theorem exec_bus {i : Instr} {s t : State} (h : exec i s = .next t) : t.pending = s.pending ∧ t.readData =
    s.readData := by
  cases i with
  | configure w r => rcases execConfigure_cases h with ⟨_, rfl⟩ | ⟨_, _, _, rfl⟩ | ⟨_, _, _, rfl⟩ <;> simp
  | initT => rcases openOn_cases h with ⟨_, rfl⟩ | ⟨_, rfl⟩ <;> simp
  | initN => rcases openOn_cases h with ⟨_, rfl⟩ | ⟨_, rfl⟩ <;> simp
  | byte b => rcases execByte_cases h with ⟨_, rfl⟩ | ⟨_, rfl⟩ <;> simp
  | final => rcases execFinal_cases h with ⟨_, rfl⟩ | ⟨_, rfl⟩ <;> simp
  | mirror n => rcases execMirror_cases h with ⟨_, rfl⟩ | ⟨_, rfl⟩ <;> simp
  | tblrd i => rcases execTblrd_cases h with ⟨_, rfl⟩ | ⟨_, rfl⟩ <;> simp

theorem execute_setBus {cmd : Word} {s t : State} (h : execute cmd s = .next t) (q : List HostEvent)
    (d : Option Word) : execute cmd (s.setBus q d) = .next (t.setBus q d) := by
  rcases execute_cases h with ⟨e, he, rfl⟩ | ⟨i, hi, ht⟩
  · rw [execute_of_illegal he]; rfl
  · rw [execute_of_decode hi]; exact exec_setBus ht q d

theorem execute_bus {cmd : Word} {s t : State} (h : execute cmd s = .next t) :
    t.pending = s.pending ∧ t.readData = s.readData := by
  rcases execute_cases h with ⟨e, he, rfl⟩ | ⟨i, hi, ht⟩
  · simp
  · exact exec_bus ht

/-- A step takes one event off the queue. -/
theorem step_pending {s t : State} (h : step s = .next t) : t.pending = s.pending.drop 1 := by
  rcases step_cases h with ⟨hp, rfl⟩ | ⟨ev, rest, hp, ⟨_, rfl⟩ | ⟨_, _, _, _, rfl⟩ | ⟨_, _, _, _, _, hw⟩⟩
  · simp [hp]
  · simp [hp]
  · simp [hp]
  · rw [hp]
    rcases hw with ⟨_, he⟩ | ⟨_, rfl⟩ | ⟨_, rfl⟩ | ⟨_, rfl⟩ | ⟨_, _, _, _, rfl⟩
    · simpa using (execute_bus he).1
    all_goals simp

/-- The event of a command word is the write of that word to CMD (R55). -/
theorem cmdWord?_eq_some {ev : HostEvent} {v : Word} :
    ev.cmdWord? = some v ↔ ev = .write Reg.cmd.offset .word v := by
  cases ev with
  | write off width v' => cases width <;> simp [HostEvent.cmdWord?]
  | read off width => simp [HostEvent.cmdWord?]
  | reset => simp [HostEvent.cmdWord?]

/-- An event that runs a command: the step is that command's meaning. -/
theorem step_runs {s : State} {ev : HostEvent} {rest : List HostEvent} {i : Instr} (h : s.pending = ev :: rest)
    (hr : ev.runs i) : step s = exec i (s.setBus rest none) := by
  obtain ⟨v, hv, hd⟩ := hr
  rw [cmdWord?_eq_some] at hv
  subst hv
  rw [step_cmd h, execute_of_decode hd]

/-- A step touches the core's state other than ARG0 to ARG2 only by a reset or by a word written to CMD. -/
theorem step_effect {s t : State} (h : step s = .next t) :
    (t.result = s.result ∧ t.acc = s.acc ∧ t.cfgValid = s.cfgValid ∧ t.msgOpen = s.msgOpen ∧ t.path = s.path ∧
        t.err = s.err ∧ t.engine = s.engine) ∨
      (∃ rest, s.pending = .reset :: rest ∧ t = State.reset.setBus rest none) ∨
      ∃ v rest, s.pending = .write Reg.cmd.offset .word v :: rest ∧ execute v (s.setBus rest none) = .next t := by
  rcases step_cases h with ⟨_, rfl⟩ | ⟨ev, rest, hp, ⟨rfl, rfl⟩ | ⟨_, _, _, _, rfl⟩ | ⟨off, r, v, rfl, hr, hw⟩⟩
  · simp
  · exact .inr (.inl ⟨_, hp, rfl⟩)
  · simp
  · rcases hw with ⟨rfl, he⟩ | ⟨_, rfl⟩ | ⟨_, rfl⟩ | ⟨_, rfl⟩ | ⟨_, _, _, _, rfl⟩
    · exact .inr (.inr ⟨v, rest, offset_of_regAt hr ▸ hp, he⟩)
    all_goals simp

/-- The next step runs the command of a word about to be written to CMD. -/
theorem runs_of_cmd {s : State} {v : Word} {i : Instr} {rest : List HostEvent}
    (h : s.pending = .write Reg.cmd.offset .word v :: rest) (hd : decode v = .command i) : s.runs i :=
  ⟨_, _, h, v, by simp [HostEvent.cmdWord?], hd⟩

end Sys2Proof.Machine
end

