-- ==== Sys2Proof/Tests/Slice0.lean ====
section
/-! SUPPORT. Tests/Slice0.lean: the smoke test of WellFormed, words of the spec's encodings and what they decode to, one
step of each command against values of the spec's vectors, and for each statement with hypotheses a state and operands
that meet them. Expected values are the spec's: each test names the file and section it takes them from. -/

namespace Sys2Proof.Tests

open Sys2Proof.Machine

/-! ### Small states -/

/-- A catalog engine (41 R110). -/
def crc6 : Engine := Engine.build 6 false 0x2F#32 0#32 0#32
def crc8 : Engine := Engine.build 8 false 0x07#32 0#32 0#32
def crc24 : Engine := Engine.build 24 false 0x864CFB#32 0xB704CE#32 0#32
def crc32 : Engine := Engine.build 32 true 0x04C11DB7#32 0xFFFFFFFF#32 0xFFFFFFFF#32

/-- The smallest width, reflected, and the FAST condition missed by XOR_IN alone. -/
def width1 : Engine := Engine.build 1 true 1#32 1#32 1#32
def poly0 : Engine := Engine.build 8 false 0#32 1#32 0#32
def width32 : Engine := Engine.build 32 false 0x04C11DB7#32 1#32 0#32

/-- Reset, with an engine in force and no message open. -/
def configured (e : Engine) : State := State.reset.install e

/-- Reset, with an engine in force and a message open whose register is `acc`. -/
def messaging (p : Path) (e : Engine) (acc : Word) : State := (configured e).openMessage p acc

/-- A state with an event about to reach the core. -/
def sent (s : State) (ev : HostEvent) (rest : List HostEvent := []) : State := s.setBus (ev :: rest) none

/-- The host's write of a word to CMD. -/
def cmd (v : Word) : HostEvent := .write 0x00#8 .word v

/-- One thing read off the next state, if there is one. -/
def after {α : Type} (f : State → α) : Host.Outcome State Fault Refusal → Option α
  | .next t => some (f t)
  | .fault _ => none
  | .refused _ => none

/-- Whether an outcome is this refusal. -/
def isRefusal (r : Refusal) : Host.Outcome State Fault Refusal → Bool
  | .next _ => false
  | .fault _ => false
  | .refused r' => decide (r = r')

theorem crc6_valid : crc6.Valid := build_valid (by decide) (by decide) _ (by decide) (by decide) (by decide)

theorem crc8_valid : crc8.Valid := build_valid (by decide) (by decide) _ (by decide) (by decide) (by decide)

theorem crc24_valid : crc24.Valid := build_valid (by decide) (by decide) _ (by decide) (by decide) (by decide)

theorem crc32_valid : crc32.Valid := build_valid (by decide) (by decide) _ (by decide) (by decide) (by decide)

theorem width1_valid : width1.Valid := build_valid (by decide) (by decide) _ (by decide) (by decide) (by decide)

theorem poly0_valid : poly0.Valid := build_valid (by decide) (by decide) _ (by decide) (by decide) (by decide)

theorem width32_valid : width32.Valid := build_valid (by decide) (by decide) _ (by decide) (by decide) (by decide)

theorem reset_inv (q : List HostEvent) : Inv (State.reset.setBus q none) :=
  ⟨(fun h => nomatch h), fun _ => ⟨rfl, rfl, rfl, rfl⟩, (fun h => nomatch h)⟩

theorem configured_inv {e : Engine} (h : e.Valid) (q : List HostEvent) : Inv ((configured e).setBus q none) :=
  ⟨fun _ => h, (fun h => nomatch h), (fun h => nomatch h)⟩

theorem messaging_inv {e : Engine} (h : e.Valid) {p : Path} {acc : Word} (ha : AccForm p e acc) (q : List HostEvent) :
    Inv ((messaging p e acc).setBus q none) :=
  ⟨fun _ => h, (fun h => nomatch h), fun _ => ⟨rfl, ha⟩⟩

theorem crc6_form (p : Path) : AccForm p crc6 0xBC#32 ↔ p = .table := by
  cases p
  · exact ⟨fun _ => rfl, fun _ => by show _ ∧ _; decide⟩
  · exact ⟨fun h => absurd h (by show ¬ _ < _; decide), fun h => nomatch h⟩

/-! ### WellFormed: each check refuses an ill-formed term (R72, R79) -/

theorem test_wf_configure_width_256 : (Instr.configure 256 false).wf = false ∧ (Instr.configure 255 true).wf = true := by
  decide

theorem test_wf_mirror_256 : (Instr.mirror 256).wf = false ∧ (Instr.mirror 255).wf = true := by decide

theorem test_wf_tblrd_256 : (Instr.tblrd 256).wf = false ∧ (Instr.tblrd 255).wf = true := by decide

/-! ### Decoding: words written out field by field, RSV F A OPCODE (30 R71, R74) -/

theorem test_decode_configure :
    decode (0b000000000000000#15 ++ 1#1 ++ 0b00100000#8 ++ 0b00000001#8) = .command (.configure 32 true) ∧
    decode (0b000000000000000#15 ++ 0#1 ++ 0b00000110#8 ++ 0b00000001#8) = .command (.configure 6 false) := by decide

theorem test_decode_initT :
    decode (0b000000000000000#15 ++ 0#1 ++ 0b00000000#8 ++ 0b00000010#8) = .command .initT := by decide

theorem test_decode_initN :
    decode (0b000000000000000#15 ++ 1#1 ++ 0b00000000#8 ++ 0b00000010#8) = .command .initN := by decide

theorem test_decode_byte :
    decode (0b000000000000000#15 ++ 0#1 ++ 0b01001000#8 ++ 0b00000011#8) = .command (.byte 0x48#8) := by decide

theorem test_decode_final :
    decode (0b000000000000000#15 ++ 0#1 ++ 0b00000000#8 ++ 0b00000100#8) = .command .final := by decide

theorem test_decode_mirror :
    decode (0b000000000000000#15 ++ 0#1 ++ 0b00101000#8 ++ 0b00000101#8) = .command (.mirror 40) := by decide

theorem test_decode_tblrd :
    decode (0b000000000000000#15 ++ 0#1 ++ 0b11111111#8 ++ 0b00000110#8) = .command (.tblrd 255) := by decide

/-- One word for each reason of 30 R75 and R76: RSV bit 17 and bit 31, OPCODE 0x00 and 0x07, F of each command that has
none, A of each command that has none. -/
theorem test_decode_illegal :
    decode 0x00020801#32 = .illegal .reservedNotZero ∧ decode 0x80000004#32 = .illegal .reservedNotZero ∧
    decode 0x00000000#32 = .illegal .unassignedOpcode ∧ decode 0x00000007#32 = .illegal .unassignedOpcode ∧
    decode 0x00010003#32 = .illegal .flagNotZero ∧ decode 0x00010004#32 = .illegal .flagNotZero ∧
    decode 0x00012005#32 = .illegal .flagNotZero ∧ decode 0x00010106#32 = .illegal .flagNotZero ∧
    decode 0x00000102#32 = .illegal .operandNotZero ∧ decode 0x00000104#32 = .illegal .operandNotZero := by decide

/-- The interface of the opcode table: an assigned word, an unassigned one, and one that is no 32-bit word. -/
theorem test_decode_table_word :
    decodeTableWord 32 0x00012001 = some (.configure 32 true) ∧ decodeTableWord 32 0 = none ∧
    decodeTableWord 64 0x100000004 = none := by decide

/-! ### One step of each command, against the spec's values -/

/-- 95 section 3.1: crc24 after CONFIGURE, and STATUS. -/
theorem test_configure_crc24 :
    let s := sent { State.reset with arg0 := 0x864CFB#32, arg1 := 0xB704CE#32 } (cmd 0x00001801#32)
    after statusWord (step s) = some 0x00000021#32 ∧ after cfgWord (step s) = some 0x00000018#32 ∧
    after (fun t => t.engine.reflectedXorIn) (step s) = some 0x007320ED#32 := by decide +kernel

/-- 95 section 3.2: over-wide operands are truncated to 4 bits. -/
theorem test_configure_masks :
    let s := sent { State.reset with arg0 := 0xFFFFFF13#32, arg1 := 0xABCDEF1F#32, arg2 := 0x100#32 } (cmd 0x00010401#32)
    after cfgWord (step s) = some 0x00040104#32 ∧
    after (fun t => (t.engine.poly, t.engine.xorOut, t.engine.shiftedXorIn)) (step s) =
      some (3#32, 0#32, 0xF0#32) := by decide +kernel

/-- 44 R161, the worked example: crc24. -/
theorem test_initT_crc24 :
    let s := sent (configured crc24) (cmd 0x00000002#32)
    after State.acc (step s) = some 0x00B704CE#32 ∧ after statusWord (step s) = some 0x00000023#32 := by decide +kernel

/-- 60 R181: INIT.T from reset raises code 4. -/
theorem test_initT_unconfigured :
    after statusWord (step (sent State.reset (cmd 0x00000002#32))) = some 0x00000400#32 := by decide +kernel

/-- 44 R162, the worked example: crc32. -/
theorem test_initN_crc32 :
    let s := sent (configured crc32) (cmd 0x00010002#32)
    after State.acc (step s) = some 0xFFFFFFFF#32 ∧ after statusWord (step s) = some 0x00000017#32 := by decide +kernel

/-- 95 section 1.3: table path, crc6 after byte 1 and 2, crc32 after byte 1, crc8 after byte 2 and 3. -/
theorem test_byte_table_path :
    after State.acc (step (sent (messaging .table crc6 0xBC#32) (cmd 0x00000203#32))) = some 0x24#32 ∧
    after State.acc (step (sent (messaging .table crc32 0xFFFFFFFF#32) (cmd 0x00000103#32))) = some 0x5AFA20E4#32 ∧
    after State.acc (step (sent (messaging .table crc8 0x1B#32) (cmd 0x00000303#32))) = some 0x48#32 := by
  decide +kernel

/-- 95 section 1.3: reference path, crc6 after byte 1 and 2, crc32 after byte 1 and 2. -/
theorem test_byte_reference_path :
    after State.acc (step (sent (messaging .reference crc6 0x2F#32) (cmd 0x00000203#32))) = some 0x09#32 ∧
    after State.acc (step (sent (messaging .reference crc32 0x27045F5A#32) (cmd 0x00000203#32))) = some 0xB6BDCC92#32 := by
  decide +kernel

/-- 95 section 1.3: the last ACC and RESULT of crc32 and crc6 on each path. -/
theorem test_final_both_paths :
    after State.result (step (sent (messaging .table crc32 0xAA437FE2#32) (cmd 4#32))) = some 0x55BC801D#32 ∧
    after State.result (step (sent (messaging .reference crc32 0x47FEC255#32) (cmd 4#32))) = some 0x55BC801D#32 ∧
    after State.result (step (sent (messaging .table crc6 0x50#32) (cmd 4#32))) = some 0x14#32 := by decide +kernel

/-- 95 section 8, program 3, rows 31 and 32: FINAL with no message open. -/
theorem test_final_no_message :
    after statusWord (step (sent (configured crc8) (cmd 4#32))) = some 0x00000531#32 := by decide +kernel

/-- 95 section 2: `mirror 32` on 0x12345678, with no engine. -/
theorem test_mirror_32 :
    after State.result (step (sent { State.reset with arg0 := 0x12345678#32 } (cmd 0x00002005#32))) =
      some 0x1E6A2C48#32 := by decide +kernel

/-- 95 section 2: `mirror 33` raises code 3 and leaves RESULT. -/
theorem test_mirror_33 :
    let s := sent { State.reset with arg0 := 0x12345678#32, result := 0x1E6A2C48#32 } (cmd 0x00002105#32)
    after State.result (step s) = some 0x1E6A2C48#32 ∧ after statusWord (step s) = some 0x00000300#32 := by decide +kernel

/-- 95 section 4: TBLRD after `cfg crc8` and `cfg crc32`. -/
theorem test_tblrd_entries :
    after State.result (step (sent (configured crc8) (cmd 0x0000FF06#32))) = some 0xF3#32 ∧
    after State.result (step (sent (configured crc32) (cmd 0x00008006#32))) = some 0xEDB88320#32 := by decide +kernel

/-- 95 section 4: TBLRD from reset. -/
theorem test_tblrd_unconfigured :
    after statusWord (step (sent State.reset (cmd 0x00000006#32))) = some 0x00000400#32 := by decide +kernel

/-- 20 R52 and R53: a narrow access, a misaligned one, and the first and last reserved word. -/
theorem test_bus_refusals :
    isRefusal .nonWordAccess (step (sent State.reset (.read 0x04#8 .byte))) = true ∧
    isRefusal .nonWordAccess (step (sent State.reset (.write 0x02#8 .word 1#32))) = true ∧
    isRefusal .reservedOffset (step (sent State.reset (.read 0x3C#8 .word))) = true ∧
    isRefusal .reservedOffset (step (sent State.reset (.write 0xFC#8 .word 1#32))) = true := by decide +kernel

/-- 95 section 8, program 4, rows 15 to 18: ignored writes, ACC and CMD read. -/
theorem test_bus_ignored_writes :
    after State.acc (step (sent (messaging .reference crc24 0xB704CE#32) (.write 0x18#8 .word 0x12345678#32))) =
      some 0xB704CE#32 ∧
    after State.readData (step (sent (messaging .reference crc24 0xB704CE#32) (.read 0x18#8 .word))) =
      some (some 0xB704CE#32) ∧
    after State.readData (step (sent State.reset (.read 0x00#8 .word))) = some (some 0#32) := by decide +kernel

/-- 30 R79: a written statement and the accesses it stands for (`mirrorv`), and one whose operand is out of bounds. -/
theorem test_assembler :
    assemble (.mirrorv 0xBC 8) = some [.write 0x08#8 .word 0xBC#32, .write 0x00#8 .word 0x00000805#32] ∧
    assemble (.configure 0 0) = some [.write 0x00#8 .word 1#32] ∧ assemble (.byte 256) = none := by decide +kernel

/-- 30 R79: mnemonics in either case, decimal and hexadecimal numbers, and the UTF-8 bytes of a text. -/
theorem test_parse_statements :
    parseStatement "CONFIGURE 32, 1" = some (.configure 32 1) ∧
    parseStatement "wr ARG0, 0x2F" = some (.wr .arg0 47) ∧ parseStatement ".word 0x00020001" = some (.word 131073) ∧
    parseStatement "crc.t 1, 2, 3" = some (.crcT [1, 2, 3]) ∧ parseStatement "crc.t" = some (.crcT []) ∧
    (parseStatement "crc.t \"Hi\"").bind assemble = assemble (.crcT [0x48, 0x69]) := by decide +kernel

/-! ### Hypotheses met: for each statement that has some, a state and operands that meet all of them -/

theorem test_witness_OperandRegistersBelongToTheHost :
    (∃ t, execute 0x00000801#32 State.reset = .next t) ∧
    (∃ t, exec (.configure 32 true) State.reset = .next t ∧ t.err = .ok) ∧
    ((∀ w r, Instr.initT ≠ .configure w r) ∧ ∀ n, Instr.initT ≠ .mirror n) ∧
    ((0x08#8 ∈ [0x08#8, 0x0C#8, 0x10#8] ∧ 0x10#8 ∈ [0x08#8, 0x0C#8, 0x10#8]) ∧
      (sent State.reset (.write 0x10#8 .word 1#32) [.read 0x10#8 .word]).pending =
        .write 0x10#8 .word 1#32 :: .read 0x10#8 .word :: []) :=
  ⟨⟨_, rfl⟩, ⟨_, rfl, rfl⟩, ⟨nofun, nofun⟩, by decide, rfl⟩

theorem test_witness_ResultWrittenOnlyBySuccess :
    (∃ t, step (sent (messaging .reference crc24 1#32) (cmd 4#32)) = .next t ∧
      t.result ≠ (sent (messaging .reference crc24 1#32) (cmd 4#32)).result) ∧
    (∃ t, execute 0x00000004#32 State.reset = .next t ∧ t.err ≠ .ok) ∧
    (Inv (messaging .table crc6 0xBC#32) ∧ (messaging .table crc6 0xBC#32).msgOpen = true) ∧
    (configured crc6).cfgValid = true :=
  ⟨⟨_, rfl, by decide +kernel⟩, ⟨_, rfl, by decide⟩, ⟨messaging_inv crc6_valid ((crc6_form _).2 rfl) [], rfl⟩, rfl⟩

theorem test_witness_StatusWordLayout :
    (sent State.reset (.write 0x04#8 .word 0xFFFFFFFF#32)).pending = .write 0x04#8 .word 0xFFFFFFFF#32 :: [] := rfl

theorem test_witness_OnlyResetClearsCfgValid :
    (∃ t, exec (.configure 1 true) State.reset = .next t ∧ t.err = .ok) ∧
    (∃ t, step (sent State.reset (cmd 0x00000801#32)) = .next t ∧ t.cfgValid ≠ State.reset.cfgValid) ∧
    (∃ t, step (sent (configured crc8) .reset) = .next t ∧ t.cfgValid ≠ (configured crc8).cfgValid) ∧
    State.reset.cfgValid = false ∧
    (∃ s, run 1 (State.reset.post [cmd 0x00000801#32]) = .next s ∧ s.cfgValid = true) :=
  ⟨⟨_, rfl, rfl⟩, ⟨_, rfl, nofun⟩, ⟨_, rfl, nofun⟩, rfl, ⟨_, rfl, rfl⟩⟩

theorem test_witness_MsgOpenFollowsInitAndFinal :
    (∃ t, exec .initT (configured crc6) = .next t ∧ t.err = .ok) ∧
    (∃ t, exec .initN (configured crc6) = .next t ∧ t.err = .ok) ∧
    (∃ t, exec .final (messaging .table crc6 0xBC#32) = .next t ∧ t.err = .ok) ∧
    (∃ t, step (sent (configured crc6) (cmd 0x00010002#32)) = .next t ∧ t.msgOpen ≠ (configured crc6).msgOpen) ∧
    (∃ t, step (sent (messaging .table crc6 0xBC#32) .reset) = .next t ∧
      t.msgOpen ≠ (messaging .table crc6 0xBC#32).msgOpen) :=
  ⟨⟨_, rfl, rfl⟩, ⟨_, rfl, rfl⟩, ⟨_, rfl, rfl⟩, ⟨_, rfl, nofun⟩, ⟨_, rfl, nofun⟩⟩

theorem test_witness_PathFollowsTheLastInit :
    (∃ t, exec .initT (configured crc6) = .next t ∧ t.err = .ok) ∧
    (∃ t, exec .initN (configured crc6) = .next t ∧ t.err = .ok) ∧
    (∃ t, step (sent (configured crc6) (cmd 0x00010002#32)) = .next t ∧ t.path ≠ (configured crc6).path) ∧
    (messaging .reference crc6 1#32).msgOpen = true :=
  ⟨⟨_, rfl, rfl⟩, ⟨_, rfl, rfl⟩, ⟨_, rfl, nofun⟩, rfl⟩

theorem test_witness_VariantWrittenOnlyByConfigure :
    (∃ t, exec (.configure 8 false) State.reset = .next t ∧ t.err = .ok) ∧
    (∃ t, step (sent State.reset (cmd 0x00000801#32)) = .next t ∧ t.engine.variant ≠ State.reset.engine.variant) ∧
    (Inv (configured crc8) ∧ (configured crc8).cfgValid = true) :=
  ⟨⟨_, rfl, rfl⟩, ⟨_, rfl, by decide +kernel⟩, configured_inv crc8_valid [], rfl⟩

theorem test_witness_ErrHoldsTheLastOutcome :
    (∃ t, execute 0#32 State.reset = .next t) ∧
    (∃ t, step (sent State.reset (cmd 0#32)) = .next t ∧ t.err ≠ State.reset.err) :=
  ⟨⟨_, rfl⟩, ⟨_, rfl, nofun⟩⟩

theorem test_witness_EngineReplacedWholeOrNotAtAll :
    (∃ t, step (sent (configured crc8) (cmd 0x00000601#32)) = .next t) ∧
    (∃ t, exec (.configure 33 false) (configured crc8) = .next t ∧ t.err ≠ .ok) ∧
    (∃ t, exec (.configure 32 false) (messaging .table crc6 0xBC#32) = .next t ∧ t.err ≠ .ok) :=
  ⟨⟨_, rfl⟩, ⟨_, rfl, nofun⟩, ⟨_, rfl, nofun⟩⟩

theorem test_witness_CfgWordLayout :
    (0x1C#8 ∈ [0x1C#8, 0x20#8, 0x24#8, 0x28#8, 0x2C#8, 0x30#8, 0x34#8, 0x38#8] ∧
      (sent State.reset (.write 0x1C#8 .word 1#32)).pending = .write 0x1C#8 .word 1#32 :: []) ∧
    (Inv (configured width1) ∧ (configured width1).cfgValid = true) ∧
    (Inv (configured crc32) ∧ (configured crc32).cfgValid = true) ∧ Inv State.reset :=
  ⟨⟨by decide, rfl⟩, ⟨configured_inv width1_valid [], rfl⟩, ⟨configured_inv crc32_valid [], rfl⟩, reset_inv []⟩

theorem test_witness_AccWrittenOnlyByInitAndByte :
    (∃ t, step (sent (messaging .reference crc24 1#32) (cmd 3#32)) = .next t ∧
      t.acc ≠ (messaging .reference crc24 1#32).acc) ∧
    (∃ t, exec .final (messaging .table crc6 0xBC#32) = .next t) ∧
    (configured crc6).cfgValid = true ∧
    (sent State.reset (.read 0x18#8 .word)).pending = .read 0x18#8 .word :: [] ∧
    (Inv (messaging .table crc6 0xBC#32) ∧ (messaging .table crc6 0xBC#32).msgOpen = true) :=
  ⟨⟨_, rfl, by decide +kernel⟩, ⟨_, rfl⟩, rfl, rfl, messaging_inv crc6_valid ((crc6_form _).2 rfl) [], rfl⟩

theorem test_witness_ResetValuesAndUnobservableTable :
    (Inv (sent State.reset (cmd 0x00000801#32)) ∧ (sent State.reset (cmd 0x00000801#32)).cfgValid = false ∧
      ∃ t, step (sent State.reset (cmd 0x00000801#32)) = .next t) ∧
    (Inv (sent State.reset (.read 0xFC#8 .word)) ∧ (sent State.reset (.read 0xFC#8 .word)).cfgValid = false ∧
      ∃ r, step (sent State.reset (.read 0xFC#8 .word)) = .refused r) :=
  ⟨⟨reset_inv _, rfl, _, rfl⟩, reset_inv _, rfl, _, rfl⟩

theorem test_witness_EveryStepKeepsTheInvariant :
    ∃ t, Inv (sent (messaging .table crc6 0xBC#32) (cmd 0x00000203#32)) ∧
      step (sent (messaging .table crc6 0xBC#32) (cmd 0x00000203#32)) = .next t :=
  ⟨_, messaging_inv crc6_valid ((crc6_form _).2 rfl) _, rfl⟩

theorem test_witness_ReachableStatesMeetTheRelations :
    Reachable State.reset ∧ State.reset.cfgValid = false ∧
    ∃ t, Reachable t ∧ t.msgOpen = true ∧ t.cfgValid = true :=
  ⟨⟨[], 0, rfl⟩, rfl, _, ⟨[cmd 0x00000601#32, cmd 0x00010002#32], 2, rfl⟩, rfl, rfl⟩

theorem test_witness_HostReadsReturnTheRegisterMap :
    (sent State.reset (.read 0x00#8 .word)).pending = .read 0x00#8 .word :: [] ∧
    (sent State.reset (.read 0x38#8 .word)).pending = .read 0x38#8 .word :: [] := ⟨rfl, rfl⟩

theorem test_witness_UnsupportedAccessesAreRefused :
    (sent State.reset (.read 0x04#8 .half)).pending = .read 0x04#8 .half :: [] ∧ AccessWidth.half ≠ .word ∧
    (sent State.reset (.write 0x01#8 .word 0#32)).pending = .write 0x01#8 .word 0#32 :: [] ∧
    (0x01#8).toNat % 4 ≠ 0 ∧
    (sent State.reset (.read 0x3C#8 .word)).pending = .read 0x3C#8 .word :: [] ∧
    ((0x3C#8).toNat % 4 = 0 ∧ 0x3C ≤ (0x3C#8).toNat) ∧ ((0xFC#8).toNat % 4 = 0 ∧ 0x3C ≤ (0xFC#8).toNat) := by
  refine ⟨rfl, nofun, rfl, ?_, rfl, ?_, ?_⟩ <;> decide

theorem test_witness_HostWritesByKindOfOffset :
    (sent State.reset (.write 0x08#8 .word 1#32)).pending = .write 0x08#8 .word 1#32 :: [] ∧
    (sent State.reset (.write 0x0C#8 .word 1#32)).pending = .write 0x0C#8 .word 1#32 :: [] ∧
    (0x10#8 ∈ [0x08#8, 0x0C#8, 0x10#8] ∧
      (sent State.reset (.write 0x10#8 .word 1#32) [.write 0x10#8 .word 1#32]).pending =
        .write 0x10#8 .word 1#32 :: .write 0x10#8 .word 1#32 :: [] ∧
      ∃ t, step (sent State.reset (.write 0x10#8 .word 1#32) [.write 0x10#8 .word 1#32]) = .next t) ∧
    (sent State.reset (.write 0x38#8 .word 1#32)).pending = .write 0x38#8 .word 1#32 :: [] :=
  ⟨rfl, rfl, ⟨by decide, rfl, _, rfl⟩, rfl⟩

theorem test_witness_CmdWriteExecutesCmdReadReturnsZero :
    (sent State.reset (cmd 5#32)).pending = .write 0x00#8 .word 5#32 :: [] ∧
    (sent State.reset (.read 0x00#8 .word)).pending = .read 0x00#8 .word :: [] := ⟨rfl, rfl⟩

theorem test_witness_HostReadsHaveNoSideEffect :
    (sent State.reset (.read 0x1C#8 .word) [.read 0x1C#8 .word]).pending =
      .read 0x1C#8 .word :: .read 0x1C#8 .word :: [] ∧
    ∃ t, step (sent State.reset (.read 0x1C#8 .word) [.read 0x1C#8 .word]) = .next t := ⟨rfl, _, rfl⟩

theorem test_witness_SupportedAccessesCompleteInOneStep :
    (sent State.reset .reset).pending = HostEvent.reset :: [] ∧
    (sent State.reset (.read 0x38#8 .word)).pending = .read 0x38#8 .word :: [] ∧
    (0x38#8).toNat % 4 = 0 ∧ (0x38#8).toNat ≤ 0x38 := by
  refine ⟨rfl, rfl, ?_, ?_⟩ <;> decide

theorem test_witness_AccessesActInOrder :
    State.reset.pending = [] ∧ (∃ t, run 1 (sent State.reset (cmd 5#32)) = .next t) ∧
    (1 ≤ (sent State.reset (cmd 5#32)).pending.length ∧
      ∃ r, run 1 (sent State.reset (.read 0xFC#8 .word)) = .refused r) ∧
    (sent State.reset (cmd 5#32) [.read Reg.status.offset .word]).pending =
      .write 0x00#8 .word 5#32 :: .read Reg.status.offset .word :: [] ∧
    ∃ t, run 2 (sent State.reset (cmd 5#32) [.read Reg.status.offset .word]) = .next t :=
  ⟨rfl, ⟨_, rfl⟩, ⟨by decide, _, rfl⟩, rfl, _, rfl⟩

theorem test_witness_ResetDiscardsMessageAndEngine :
    (sent (messaging .table crc6 0xBC#32) .reset).pending = .reset :: [] ∧
    (∃ t t', State.reset.cfgValid = false ∧ run 1 (State.reset.post [cmd 0x00000801#32, cmd 0x00000002#32]) = .next t ∧
      t.runs .initT ∧ step t = .next t' ∧ t'.err = .ok) ∧
    (∃ t, step (sent (configured crc8) .reset) = .next t ∧ (configured crc8).cfgValid = true ∧ t.cfgValid = false) :=
  ⟨rfl, ⟨_, _, rfl, rfl, ⟨_, _, rfl, _, rfl, rfl⟩, rfl, rfl⟩, _, rfl, rfl, rfl⟩

theorem test_witness_PlatformWindowIsOneToOne :
    platformOffset (Config.polycrcBase + (0x00#8).toNat) = some 0x00#8 ∧
    platformOffset (Config.polycrcBase + (0xFF#8).toNat) = some 0xFF#8 := by
  constructor <;> simp [platformOffset]

theorem test_witness_EncodeThenDecodeIsIdentity :
    (Instr.configure 255 true).wf = true ∧ (Instr.mirror 0).wf = true ∧ (Instr.tblrd 255).wf = true := by decide

theorem test_witness_DecodedWordEncodesBack : decode 0x0001FF01#32 = .command (.configure 255 true) := by decide

theorem test_witness_OpcodeRowsDecideDecoding :
    decode 0x0000FF06#32 = .command (.tblrd 255) ∧ decode 0x00000007#32 = .illegal .unassignedOpcode := by decide

/-- The words where the clauses meet: OPCODE 0x06 and 0x07, F and A of the last command that allows them. -/
theorem test_witness_IllegalWordsExactly :
    (7 ≤ ((0x00000007#32).extractLsb' 0 8).toNat) ∧ ((0x00000006#32).extractLsb' 0 8).toNat = 6 ∧
    (0x00020001#32).extractLsb' 17 15 ≠ 0#15 ∧ (0x00010003#32).getLsbD 16 = true ∧
    (0x00000104#32).extractLsb' 8 8 ≠ 0#8 := by decide

theorem test_witness_AssemblerWordsAreSums : 0 < 256 ∧ 255 < 256 := by decide

theorem test_witness_StepRunsTheDecodedCommand :
    (sent State.reset (cmd 0x00002005#32)).pending = .write 0x00#8 .word 0x00002005#32 :: [] ∧
    decode 0x00002005#32 = .command (.mirror 32) ∧ decodeTableWord 32 0x00002005 = some (.mirror 32) := by
  refine ⟨rfl, ?_, ?_⟩ <;> decide

theorem test_witness_CfgpConfiguresTheCore :
    (1 ≤ 1 ∧ 1 ≤ 32 ∧ 0 < 2 ^ 32 ∧ 0 ≤ 1) ∧ (1 ≤ 32 ∧ 32 ≤ 32 ∧ 2 ^ 32 - 1 < 2 ^ 32 ∧ 1 ≤ 1) ∧
    ∃ evs, assemble (.cfgp 32 0x04C11DB7 0xFFFFFFFF 0xFFFFFFFF 1) = some evs ∧
      (State.reset.setBus (evs ++ []) none).pending = evs ++ [] ∧ State.reset.msgOpen = false := by
  refine ⟨by decide, by decide, _, rfl, rfl, rfl⟩

theorem test_witness_MirrorReversesTheLowBits : 0 ≤ 32 ∧ 32 ≤ 32 ∧ 31 < 32 := by decide

theorem test_witness_MirrorPropertiesAndInvolution :
    (0 ≤ 32 ∧ (0#32).toNat < 2 ^ 0) ∧ (1 ≤ 32 ∧ 1 ≤ 1 ∧ (1#32).toNat < 2 ^ 1) ∧
    (32 ≤ 32 ∧ (0xFFFFFFFF#32).toNat < 2 ^ 32) := by decide

theorem test_witness_MirrorCommandWritesResult : 0 ≤ 32 ∧ 32 ≤ 32 ∧ 32 < 33 ∧ 32 < 255 := by decide

theorem test_witness_WidthOutsideRangeIsInvalid : (0 = 0 ∨ 33 ≤ 0) ∧ 33 ≤ 33 ∧ (1 ≤ 1 ∧ 1 ≤ 32) ∧ 1 ≤ 32 ∧ 32 ≤ 32 := by
  decide

theorem test_witness_OperandBitsAboveWidthAreDropped :
    1 ≤ 4 ∧ 4 ≤ 32 ∧ (0xFFFFFF13#32).toNat % 2 ^ 4 = (3#32).toNat % 2 ^ 4 ∧
    (0xABCDEF1F#32).toNat % 2 ^ 4 = (0xF#32).toNat % 2 ^ 4 ∧ (0x100#32).toNat % 2 ^ 4 = (0#32).toNat % 2 ^ 4 := by decide

theorem test_witness_ConfigureBuildsTheEngine :
    (1 ≤ 1 ∧ 1 ≤ 32 ∧ State.reset.msgOpen = false) ∧ 1 ≤ 32 ∧ 32 ≤ 32 := by decide

theorem test_witness_TableEntryLandmarks :
    (1 ≤ 1 ∧ 1 ≤ 32 ∧ (1#32).toNat < 2 ^ 1) ∧ 1 ≤ 32 ∧ 32 ≤ 32 ∧ (0xFFFFFFFF#32).toNat < 2 ^ 32 := by decide

theorem test_witness_TblrdReadsOneEntry :
    (0 < 256 ∧ 255 < 256) ∧ (configured crc8).cfgValid = true ∧ Inv (configured crc8) ∧ State.reset.cfgValid = false :=
  ⟨by decide, rfl, configured_inv crc8_valid [], rfl⟩

theorem test_witness_TableStepCornerCases :
    (crc8.Valid ∧ crc8.w ≤ 8 ∧ (0xFF#32).toNat < 2 ^ crc8.w ∧ crc8.w = 8 ∧ (0xFF#32).toNat < 2 ^ 8) ∧
    (crc6.Valid ∧ crc6.w < 8 ∧ (0xBC#32).toNat < 2 ^ 8 ∧ 2 ^ crc6.cs ∣ (0xBC#32).toNat) ∧
    (width32.Valid ∧ width32.w = 32) :=
  ⟨⟨crc8_valid, by decide +kernel, by decide +kernel, by decide +kernel, by decide +kernel⟩,
   ⟨crc6_valid, by decide +kernel, by decide +kernel, by decide +kernel⟩, width32_valid, by decide +kernel⟩

theorem test_witness_FastPathEqualsNonreflected :
    crc8.Valid ∧ crc8.variant = .fast ∧ (0xFF#32).toNat < 2 ^ 8 :=
  ⟨crc8_valid, by decide +kernel, by decide⟩

theorem test_witness_ChecksumsFitTheWidth : width1.Valid ∧ crc32.Valid := ⟨width1_valid, crc32_valid⟩

theorem test_witness_EmptyInputChecksum :
    (width1.Valid ∧ width1.variant = .reflected ∧ width1.reflect = true) ∧
    (poly0.Valid ∧ poly0.variant = .nonreflected ∧ poly0.reflect = false) ∧ (crc8.Valid ∧ crc8.variant = .fast) :=
  ⟨⟨width1_valid, by decide +kernel, rfl⟩, ⟨poly0_valid, by decide +kernel, rfl⟩, crc8_valid, by decide +kernel⟩

theorem test_witness_ReferenceStepCornerCases :
    (poly0.Valid ∧ (0xFF#32).toNat < 2 ^ poly0.w ∧ poly0.poly = 0#32) ∧
    (width1.Valid ∧ (1#32).toNat < 2 ^ width1.w ∧ width1.w = 1) :=
  ⟨⟨poly0_valid, by decide +kernel, rfl⟩, width1_valid, by decide +kernel, by decide +kernel⟩

theorem test_witness_TableAccIsReferenceAccInItsForm :
    (crc32.Valid ∧ crc32.variant = .reflected) ∧ (crc6.Valid ∧ crc6.variant = .nonreflected) ∧
    (crc8.Valid ∧ crc8.variant = .fast) :=
  ⟨⟨crc32_valid, by decide +kernel⟩, ⟨crc6_valid, by decide +kernel⟩, crc8_valid, by decide +kernel⟩

theorem test_witness_TablePathEqualsReferencePath : width1.Valid ∧ crc6.Valid ∧ crc8.Valid ∧ crc24.Valid ∧ crc32.Valid :=
  ⟨width1_valid, crc6_valid, crc8_valid, crc24_valid, crc32_valid⟩

theorem test_witness_MessageLifecycle :
    ((configured crc6).msgOpen = false ∧ (configured crc6).cfgValid = true) ∧
    ((messaging .table crc6 0xBC#32).msgOpen = true ∧ (messaging .table crc6 0xBC#32).cfgValid = true) ∧
    (1 ≤ 1 ∧ 1 ≤ 32 ∧ 32 ≤ 32) ∧ ∃ t, execute 4#32 State.reset = .next t ∧ t.err ≠ .ok :=
  ⟨⟨rfl, rfl⟩, ⟨rfl, rfl⟩, by decide, _, rfl, nofun⟩

theorem test_witness_InitTLoadsTheVariantsRegister :
    (Inv (configured crc32) ∧ (configured crc32).cfgValid = true ∧ crc32.variant = .reflected) ∧
    (Inv (configured crc6) ∧ (configured crc6).cfgValid = true ∧ crc6.variant = .nonreflected) ∧
    (Inv (configured crc8) ∧ (configured crc8).cfgValid = true ∧ crc8.variant = .fast) ∧
    (Inv State.reset ∧ State.reset.cfgValid = false) :=
  ⟨⟨configured_inv crc32_valid [], rfl, by decide +kernel⟩, ⟨configured_inv crc6_valid [], rfl, by decide +kernel⟩,
   ⟨configured_inv crc8_valid [], rfl, by decide +kernel⟩, reset_inv [], rfl⟩

theorem test_witness_InitNLoadsXorIn : (configured crc32).cfgValid = true ∧ State.reset.cfgValid = false := ⟨rfl, rfl⟩

/-- An open message on each variant and on the reference path, and one that is not open. -/
theorem test_witness_ByteStepsAcc_FinalWritesTheChecksum :
    (Inv (messaging .table crc32 5#32) ∧ (messaging .table crc32 5#32).msgOpen = true ∧ crc32.variant = .reflected) ∧
    (Inv (messaging .table crc6 0xBC#32) ∧ crc6.variant = .nonreflected) ∧
    (Inv (messaging .table crc8 0xFF#32) ∧ crc8.variant = .fast) ∧
    (Inv (messaging .reference crc32 5#32) ∧ crc32.reflect = true) ∧
    (Inv (messaging .reference crc6 5#32) ∧ crc6.reflect = false) ∧ (Inv State.reset ∧ State.reset.msgOpen = false) :=
  ⟨⟨messaging_inv crc32_valid (by show _ < _; decide +kernel) [], rfl, by decide +kernel⟩,
   ⟨messaging_inv crc6_valid ((crc6_form _).2 rfl) [], by decide +kernel⟩,
   ⟨messaging_inv crc8_valid (by show _ < _; decide +kernel) [], by decide +kernel⟩,
   ⟨messaging_inv crc32_valid (by show _ < _; decide +kernel) [], rfl⟩,
   ⟨messaging_inv crc6_valid (by show _ < _; decide +kernel) [], rfl⟩, reset_inv [], rfl⟩

/-- The message of 95 section 8, program 2, with quiet events in it: a write to ARG0, MIRROR, a refused CONFIGURE and an
illegal word. -/
theorem test_witness_MessageComputesItsChecksum :
    let body := [cmd 0x00003103#32, .write 0x08#8 .word 1#32, cmd 0x00000805#32, cmd 0x00000601#32, cmd 0#32]
    (configured crc6).cfgValid = true ∧ (cmd 2#32).runs (initInstr .table) ∧ (cmd 4#32).runs .final ∧
    messageBody body ∧ fedBytes body = [0x31#8] ∧
    (sent (configured crc6) (cmd 2#32) (body ++ cmd 4#32 :: [])).pending = cmd 2#32 :: (body ++ cmd 4#32 :: []) ∧
    messageBody [] ∧ ∀ ev ∈ ([] : List HostEvent), ∃ v, ev.cmdWord? = some v := by
  refine ⟨rfl, ⟨_, rfl, rfl⟩, ⟨_, rfl, rfl⟩, ?_, rfl, rfl, nofun, nofun⟩
  unfold messageBody
  decide

theorem test_witness_NoContinuationAfterFinal :
    ∃ t, exec .final (messaging .table crc6 0xBC#32) = .next t ∧ t.err = .ok ∧ t.cfgValid = true := ⟨_, rfl, rfl, rfl⟩

theorem test_witness_QuietEventsLeaveTheMessageAlone :
    ((messaging .table crc6 0xBC#32).msgOpen = true ∧ (cmd 0x00000805#32).quiet = true ∧
      (HostEvent.write 0x10#8 .word 1#32).quiet = true) ∧
    (∃ t, exec (.mirror 8) (messaging .table crc6 0xBC#32) = .next t) ∧
    (∃ t, exec (.configure 0 false) (messaging .table crc6 0xBC#32) = .next t) ∧ (1 ≤ 1 ∧ 1 ≤ 32 ∧ 32 ≤ 32) ∧
    ∃ t, execute 0#32 (messaging .table crc6 0xBC#32) = .next t ∧ t.err ≠ .ok :=
  ⟨⟨rfl, by decide, by decide⟩, ⟨_, rfl⟩, ⟨_, rfl⟩, by decide, _, rfl, nofun⟩

/-- Two open messages with one engine, one on each path and each with the same accesses to come, are side by side when
their registers correspond. -/
theorem messaging_sideBySide {e : Engine} (h : e.Valid) {a c : Word} (ha : AccForm .table e a)
    (hc : AccForm .reference e c) (hs : SameRegister e a c) (q : List HostEvent) :
    SideBySide ((messaging .table e a).setBus q none) ((messaging .reference e c).setBus q none) :=
  ⟨messaging_inv h ha q, messaging_inv h hc q, rfl, rfl, rfl, rfl, rfl, hs⟩

/-- Messages of each variant side by side (crc6 and crc8: the registers of 95 section 1.3 after byte 0x01; width 1,
reflected: ACC = 1), with a shared BYTE, a shared read of ACC, a shared refused access and a shared FINAL to come; and two
cores about to open their messages. -/
theorem test_witness_PathsRunSideBySide :
    SideBySide (sent (messaging .table crc6 0xBC#32) (cmd 0x203#32))
      (sent (messaging .reference crc6 0x2F#32) (cmd 0x203#32)) ∧
    SideBySide (sent (messaging .table crc8 7#32) (.read 0x18#8 .word))
      (sent (messaging .reference crc8 7#32) (.read 0x18#8 .word)) ∧
    SideBySide (sent (messaging .table width1 1#32) (cmd 4#32))
      (sent (messaging .reference width1 1#32) (cmd 4#32)) ∧
    (HostEvent.supported (cmd 0x203#32) = true ∧ HostEvent.supported (.read 0x18#8 .word) = true ∧
      HostEvent.supported (.read 0x3C#8 .word) = false) ∧ HostEvent.runs (cmd 4#32) .final ∧
    (∀ i, i = .initT ∨ i = .initN ∨ i = .final → ¬ HostEvent.runs (cmd 0x203#32) i ∧
      ¬ HostEvent.runs (.read 0x18#8 .word) i ∧ ¬ HostEvent.runs (.read 0x3C#8 .word) i) ∧
    (Inv (sent (configured crc6) (cmd 2#32)) ∧ Inv (sent (configured crc6) (cmd 0x10002#32)) ∧
      HostEvent.runs (cmd 2#32) .initT ∧ HostEvent.runs (cmd 0x10002#32) .initN) := by
  refine ⟨messaging_sideBySide crc6_valid ((crc6_form _).2 rfl) ?_ ?_ _, messaging_sideBySide crc8_valid ?_ ?_ ?_ _,
    messaging_sideBySide width1_valid ?_ ?_ ?_ _, by decide +kernel, ⟨_, rfl, rfl⟩, ?_, configured_inv crc6_valid _,
    configured_inv crc6_valid _, ⟨_, rfl, rfl⟩, ⟨_, rfl, rfl⟩⟩
  case refine_9 =>
    have h1 : (cmd 0x203#32).cmdWord? = some 0x203#32 := rfl
    have h2 : decode 0x203#32 = .command (.byte 2#8) := by decide
    rintro i (rfl | rfl | rfl) <;>
      exact ⟨by simp [HostEvent.runs, h1, h2], by simp [HostEvent.runs, HostEvent.cmdWord?],
        by simp [HostEvent.runs, HostEvent.cmdWord?]⟩
  all_goals first | (show _ < _; decide +kernel) | (show _ = _; decide +kernel)

theorem test_witness_FailedCommandChangesOnlyErr : ∃ t, execute 0x00000001#32 State.reset = .next t ∧ t.err ≠ .ok :=
  ⟨_, rfl, nofun⟩

end Sys2Proof.Tests
end

section
/-! The layer under the statements of 10_state.md: for every command the error it raises and its effect, everything one
step can do with a command in terms of these, the host's word accesses, and the runs from their last step. -/

namespace Sys2Proof.Machine

/-! ### A command is an error check and an effect -/

/-- The error a command raises in a state, in the order of R184; none when it succeeds. -/
def errorOf (i : Instr) (s : State) : Option Err :=
  match i with
  | .configure w _ => if w < 1 ∨ 32 < w then some .invalidWidth else if s.msgOpen then some .messageOpen else none
  | .initT | .initN | .tblrd _ => if s.cfgValid then none else some .notConfigured
  | .byte _ | .final => if s.msgOpen then none else some .noMessage
  | .mirror n => if 32 < n then some .invalidOperand else none

/-- What a successful command does before it writes ERR (R183). -/
def effectOf (i : Instr) (s : State) : State :=
  match i with
  | .configure w r => s.install (configuredEngine w r s)
  | .initT => s.openMessage .table (initOn .table s.engine)
  | .initN => s.openMessage .reference (initOn .reference s.engine)
  | .byte b => s.setAcc (stepOn s.path s.engine s.acc b)
  | .final => (s.setResult (finOn s.path s.engine s.acc)).closeMessage
  | .mirror n => s.setResult (mirror s.arg0 n)
  | .tblrd i => s.setResult (tableRead s.engine.table i)

/-- A command raises its error, or has its effect and writes 0 to ERR (R182, R183). -/
theorem exec_eq (i : Instr) (s : State) :
    exec i s = .next ((errorOf i s).elim ((effectOf i s).setErr .ok) s.setErr) := by
  cases i with
  | configure w r =>
    by_cases hw : w < 1 ∨ 32 < w
    · simp only [exec, execConfigure, errorOf, if_pos hw, raise_eq_next, Option.elim_some]
    · simp only [exec, execConfigure, errorOf, if_neg hw]
      cases hm : s.msgOpen <;> simp [effectOf]
  | initT => cases hc : s.cfgValid <;> simp [exec_initT, openOn, errorOf, effectOf, hc]
  | initN => cases hc : s.cfgValid <;> simp [exec_initN, openOn, errorOf, effectOf, hc]
  | byte b => cases hm : s.msgOpen <;> simp [exec, execByte, errorOf, effectOf, hm]
  | final => cases hm : s.msgOpen <;> simp [exec, execFinal, errorOf, effectOf, hm]
  | mirror n => by_cases hn : 32 < n <;> simp [exec, execMirror, errorOf, effectOf, hn]
  | tblrd i => cases hc : s.cfgValid <;> simp [exec, execTblrd, errorOf, effectOf, hc]

theorem exec_of_error {i : Instr} {s : State} {e : Err} (h : errorOf i s = some e) : exec i s = .next (s.setErr e) := by
  rw [exec_eq, h, Option.elim_some]

theorem exec_of_success {i : Instr} {s : State} (h : errorOf i s = none) :
    exec i s = .next ((effectOf i s).setErr .ok) := by
  rw [exec_eq, h, Option.elim_none]

/-- The code of an error is not 0 (R181). -/
theorem errorOf_ne_ok {i : Instr} {s : State} {e : Err} (h : errorOf i s = some e) : e ≠ .ok := by
  rintro rfl
  unfold errorOf at h
  repeat' split at h
  all_goals cases h

@[simp] theorem errorOf_configure_eq_none (w : Nat) (r : Bool) (s : State) :
    errorOf (.configure w r) s = none ↔ (1 ≤ w ∧ w ≤ 32) ∧ s.msgOpen = false := by
  by_cases hw : w < 1 ∨ 32 < w
  · simp only [errorOf, if_pos hw, reduceCtorEq, false_iff]
    omega
  · have : 1 ≤ w ∧ w ≤ 32 := by omega
    cases hm : s.msgOpen <;> simp only [errorOf, if_neg hw] <;> simp [this, hm]

@[simp] theorem errorOf_initT_eq_none (s : State) : errorOf .initT s = none ↔ s.cfgValid = true := by simp [errorOf]

@[simp] theorem errorOf_initN_eq_none (s : State) : errorOf .initN s = none ↔ s.cfgValid = true := by simp [errorOf]

@[simp] theorem errorOf_byte_eq_none (b : Byte) (s : State) : errorOf (.byte b) s = none ↔ s.msgOpen = true := by
  simp [errorOf]

@[simp] theorem errorOf_final_eq_none (s : State) : errorOf .final s = none ↔ s.msgOpen = true := by simp [errorOf]

@[simp] theorem errorOf_mirror_eq_none (n : Nat) (s : State) : errorOf (.mirror n) s = none ↔ n ≤ 32 := by
  simp [errorOf]

@[simp] theorem errorOf_tblrd_eq_none (i : Nat) (s : State) : errorOf (.tblrd i) s = none ↔ s.cfgValid = true := by
  simp [errorOf]

/-- What a command answers: its error and nothing else, or its effect. -/
theorem exec_cases {i : Instr} {s t : State} (h : exec i s = .next t) :
    (∃ e, e ≠ .ok ∧ errorOf i s = some e ∧ t = s.setErr e) ∨
      (errorOf i s = none ∧ t = (effectOf i s).setErr .ok) := by
  cases he : errorOf i s with
  | some e => exact .inl ⟨e, errorOf_ne_ok he, rfl, by simpa [exec_of_error he] using h.symm⟩
  | none => exact .inr ⟨rfl, by simpa [exec_of_success he] using h.symm⟩

/-- A command that ends with ERR = 0 had its effect. -/
theorem exec_succeeded {i : Instr} {s t : State} (h : exec i s = .next t) (hok : t.err = .ok) :
    errorOf i s = none ∧ t = (effectOf i s).setErr .ok := by
  rcases exec_cases h with ⟨e, hne, -, rfl⟩ | hs
  · exact absurd hok hne
  · exact hs

/-- A word whose execution ends with an error changes ERR alone (R182). -/
theorem execute_failed {cmd : Word} {s t : State} (h : execute cmd s = .next t) (he : t.err ≠ .ok) :
    t = s.setErr t.err := by
  rcases execute_cases h with ⟨_, -, rfl⟩ | ⟨i, -, hi⟩
  · rfl
  · rcases exec_cases hi with ⟨e, -, -, rfl⟩ | ⟨-, rfl⟩
    · rfl
    · exact absurd rfl he

/-- The engine CONFIGURE builds depends on ARG0 to ARG2 alone (R21). -/
@[simp] theorem configuredEngine_setBus (w : Nat) (r : Bool) (s : State) (q : List HostEvent) (d : Option Word) :
    configuredEngine w r (s.setBus q d) = configuredEngine w r s := rfl

/-- No command writes ARG0 to ARG2 (R21). -/
theorem effectOf_args (i : Instr) (s : State) :
    (effectOf i s).arg0 = s.arg0 ∧ (effectOf i s).arg1 = s.arg1 ∧ (effectOf i s).arg2 = s.arg2 := by
  cases i <;> exact ⟨rfl, rfl, rfl⟩

/-! ### What one step can do, by command -/

/-- Two states agree on everything the commands and reset write, but for ERR. -/
structure SameButErr (s t : State) : Prop where
  result : t.result = s.result
  acc : t.acc = s.acc
  cfgValid : t.cfgValid = s.cfgValid
  msgOpen : t.msgOpen = s.msgOpen
  path : t.path = s.path
  engine : t.engine = s.engine

/-- One step changes nothing but ERR, ARG0 to ARG2 and the bus, or is a reset, or is a command that succeeds. -/
theorem step_outcome {s t : State} (h : step s = .next t) :
    SameButErr s t ∨ (s.resets ∧ ∃ rest, t = State.reset.setBus rest none) ∨
      ∃ i rest, s.runs i ∧ errorOf i s = none ∧ t = (effectOf i (s.setBus rest none)).setErr .ok := by
  rcases step_effect h with ⟨hr, ha, hc, hm, hp, -, he⟩ | ⟨rest, hp, rfl⟩ | ⟨v, rest, hp, hx⟩
  · exact .inl ⟨hr, ha, hc, hm, hp, he⟩
  · exact .inr (.inl ⟨⟨rest, hp⟩, rest, rfl⟩)
  · rcases execute_cases hx with ⟨_, -, rfl⟩ | ⟨i, hd, hi⟩
    · exact .inl ⟨rfl, rfl, rfl, rfl, rfl, rfl⟩
    · rcases exec_cases hi with ⟨e, -, -, rfl⟩ | ⟨hn, rfl⟩
      · exact .inl ⟨rfl, rfl, rfl, rfl, rfl, rfl⟩
      · exact .inr (.inr ⟨i, rest, runs_of_cmd hp hd, hn, rfl⟩)

/-- The engine and CFG_VALID under one step: kept, reset, or those of a successful CONFIGURE (R25, R31). -/
theorem step_engine {s t : State} (h : step s = .next t) :
    (t.engine = s.engine ∧ t.cfgValid = s.cfgValid) ∨
      (s.resets ∧ t.engine = Engine.reset ∧ t.cfgValid = false) ∨
      ∃ w r, s.runs (.configure w r) ∧ t.err = .ok ∧ t.engine = configuredEngine w r s ∧ t.cfgValid = true := by
  rcases step_outcome h with hs | ⟨hr, _, rfl⟩ | ⟨i, rest, hi, -, rfl⟩
  · exact .inl ⟨hs.engine, hs.cfgValid⟩
  · exact .inr (.inl ⟨hr, rfl, rfl⟩)
  · cases i with
    | configure w r => exact .inr (.inr ⟨w, r, hi, rfl, rfl, rfl⟩)
    | _ => exact .inl ⟨rfl, rfl⟩

/-! ### Word accesses to an assigned register -/

theorem isWordAccess_offset (r : Reg) : isWordAccess r.offset .word = true := by cases r <;> decide

/-- A 32-bit host write to a register (R57). -/
theorem step_write {s : State} {r : Reg} {v : Word} {rest : List HostEvent}
    (h : s.pending = .write r.offset .word v :: rest) : step s = writeReg r v (s.setBus rest none) := by
  simp [step_event h, perform, hostWrite, isWordAccess_offset]

/-- A 32-bit host read of a register (R56). -/
theorem step_read {s : State} {r : Reg} {rest : List HostEvent} (h : s.pending = .read r.offset .word :: rest) :
    step s = .next (s.setBus rest (some (readReg r s))) := by
  simp [step_event h, perform, hostRead, isWordAccess_offset]

/-! ### Runs from their last step -/

/-- A run of `k + 1` steps that answers is a run of `k` steps and a step. -/
theorem run_succ_last {k : Nat} {s t : State} (h : run (k + 1) s = .next t) :
    ∃ u, run k s = .next u ∧ step u = .next t := by
  induction k generalizing s with
  | zero =>
    obtain ⟨u, hu, hr⟩ := run_succ h
    cases hr
    exact ⟨s, rfl, hu⟩
  | succ k ih =>
    obtain ⟨v, hv, hr⟩ := run_succ h
    obtain ⟨u, hu, ht⟩ := ih hr
    exact ⟨u, (run_succ_of_step hv k).trans hu, ht⟩

/-- What holds after reset and is kept by every step holds of every reachable state (R43). -/
theorem Reachable.of_step {P : State → Prop} (h0 : ∀ evs, P (State.reset.post evs))
    (hs : ∀ s t, P s → step s = .next t → P t) {t : State} (h : Reachable t) : P t := by
  obtain ⟨evs, k, hk⟩ := h
  induction k generalizing t with
  | zero => cases hk; exact h0 evs
  | succ k ih =>
    obtain ⟨u, hu, ht⟩ := run_succ_last hk
    exact hs u t (ih hu) ht

end Sys2Proof.Machine
end

section
/-! Values and their bounds: what the variant choice answers (R105), the registers of a valid engine (R32 to R35), the
form of ACC from INIT on (R38), and the invariant under every step (R43). -/

namespace Sys2Proof.Machine

/-! ### The variant (R105) -/

@[simp] theorem variantOf_true (w : Nat) (xi xo : Word) : variantOf w xi xo true = .reflected := rfl

/-- Without reflection, FAST for width 8 and no XOR values, and the general variant otherwise. -/
@[simp] theorem variantOf_false (w : Nat) (xi xo : Word) :
    variantOf w xi xo false = if w = 8 ∧ xi = 0#32 ∧ xo = 0#32 then .fast else .nonreflected := rfl

theorem variantOf_eq_reflected {w : Nat} {xi xo : Word} {r : Bool} : variantOf w xi xo r = .reflected ↔ r = true := by
  cases r with
  | true => simp
  | false => rw [variantOf_false]; split <;> simp

theorem variantOf_eq_fast {w : Nat} {xi xo : Word} {r : Bool} :
    variantOf w xi xo r = .fast ↔ r = false ∧ w = 8 ∧ xi = 0#32 ∧ xo = 0#32 := by
  cases r with
  | true => simp
  | false => rw [variantOf_false]; split <;> simp [*]

theorem variantOf_ne_none (w : Nat) (xi xo : Word) (r : Bool) : variantOf w xi xo r ≠ .none := by
  cases r with
  | true => exact nofun
  | false => rw [variantOf_false]; split <;> exact nofun

/-! ### Words below a power of two -/

theorem toNat_mirror_lt (v : Word) {n : Nat} (hn : n ≤ 32) : (mirror v n).toNat < 2 ^ n := by
  apply Nat.lt_pow_two_of_testBit
  intro i hi
  have := getLsbD_mirror v hn i
  rwa [decide_eq_false (by omega), Bool.false_and] at this

theorem toNat_and_maskOf_lt {n : Nat} (hn : n ≤ 32) (v : Word) : (v &&& maskOf n).toNat < 2 ^ n := by
  rw [toNat_and_maskOf hn]
  exact Nat.mod_lt _ (Nat.two_pow_pos n)

theorem toNat_xor_lt {x y : Word} {n : Nat} (hx : x.toNat < 2 ^ n) (hy : y.toNat < 2 ^ n) :
    (x ^^^ y).toNat < 2 ^ n := by
  rw [BitVec.toNat_xor]
  exact Nat.xor_lt_two_pow hx hy

/-- A word below `2^w`, shifted left by `c`, is below `2^(w+c)` and has its low `c` bits clear. -/
theorem shiftLeft_form {v : Word} {w c : Nat} (hv : v.toNat < 2 ^ w) (hc : w + c ≤ 32) :
    (v <<< c).toNat < 2 ^ (w + c) ∧ 2 ^ c ∣ (v <<< c).toNat := by
  rw [toNat_shiftLeft_of_fits hv hc, Nat.pow_add]
  exact ⟨Nat.mul_lt_mul_of_pos_right hv (Nat.two_pow_pos c), Nat.dvd_mul_left _ _⟩

/-- Masking with a shifted mask is masking before the shift. -/
theorem and_shiftLeft (x m : Word) (c : Nat) : x &&& (m <<< c) = ((x >>> c) &&& m) <<< c := by
  apply BitVec.eq_of_getLsbD_eq
  intro i hi
  by_cases hc : i < c
  · simp [hc]
  · simp [hc, hi, Nat.add_sub_cancel' (Nat.le_of_not_lt hc)]

/-! ### A valid engine -/

section
variable {e : Engine} (h : e.Valid)
include h

theorem Engine.Valid.align_bounds : 8 ≤ e.w + e.cs ∧ e.w + e.cs ≤ 32 := by
  have := h.width_pos
  have := h.width_le
  have := h.crcShift_eq
  omega

theorem Engine.Valid.variant_ne_none : e.variant ≠ .none := by
  rw [h.variant_eq]
  exact variantOf_ne_none _ _ _ _

/-- FAST is for width 8 alone, so CRC_SHIFT is 0 with it (R105). -/
theorem Engine.Valid.width_of_fast (hv : e.variant = .fast) : e.w = 8 ∧ e.cs = 0 := by
  obtain ⟨-, hw, -, -⟩ := variantOf_eq_fast.1 (h.variant_eq ▸ hv)
  have := h.crcShift_eq
  exact ⟨hw, by omega⟩

theorem Engine.Valid.reflectedXorIn_lt : e.reflectedXorIn.toNat < 2 ^ e.w := by
  rw [h.reflectedXorIn_eq]
  exact toNat_mirror_lt _ h.width_le

theorem Engine.Valid.shiftedXorIn_form :
    e.shiftedXorIn.toNat < 2 ^ (e.w + e.cs) ∧ 2 ^ e.cs ∣ e.shiftedXorIn.toNat := by
  rw [h.shiftedXorIn_eq_shift]
  exact shiftLeft_form h.xorIn_lt h.align_bounds.2

theorem Engine.Valid.mask_lt : e.mask.toNat < 2 ^ e.w := by
  rw [h.mask_eq]
  exact Nat.sub_lt (Nat.two_pow_pos _) Nat.one_pos

theorem Engine.Valid.two_mul_msbMask : 2 * e.msbMask.toNat = 2 ^ e.w := by
  rw [h.msbMask_eq, ← Nat.pow_succ', Nat.succ_eq_add_one, Nat.sub_add_cancel h.width_pos]

theorem Engine.Valid.msbMask_lt : e.msbMask.toNat < 2 ^ e.w := by
  have := h.two_mul_msbMask
  have := Nat.two_pow_pos e.w
  omega

end

/-! ### The form of ACC (R38) -/

theorem accForm_reference {e : Engine} {acc : Word} : AccForm .reference e acc ↔ acc.toNat < 2 ^ e.w := Iff.rfl

theorem accForm_reflected {e : Engine} (hv : e.variant = .reflected) {acc : Word} :
    AccForm .table e acc ↔ acc.toNat < 2 ^ e.w := by simp [AccForm, hv]

theorem accForm_nonreflected {e : Engine} (hv : e.variant = .nonreflected) {acc : Word} :
    AccForm .table e acc ↔ acc.toNat < 2 ^ (e.w + e.cs) ∧ 2 ^ e.cs ∣ acc.toNat := by simp [AccForm, hv]

theorem accForm_fast {e : Engine} (hv : e.variant = .fast) {acc : Word} :
    AccForm .table e acc ↔ acc.toNat < 2 ^ 8 := by simp [AccForm, hv]

section
variable {e : Engine} (h : e.Valid)
include h

/-- Every non-reflected step leaves a register of the variant's form (R133). -/
theorem stepNonreflected_form (acc : Word) (b : Byte) :
    (stepNonreflected e acc b).toNat < 2 ^ (e.w + e.cs) ∧ 2 ^ e.cs ∣ (stepNonreflected e acc b).toNat := by
  simp only [stepNonreflected, h.mask_eq_maskOf]
  rw [and_shiftLeft]
  exact shiftLeft_form (toNat_and_maskOf_lt h.width_le _) h.align_bounds.2

/-- INIT loads a register of its path's form (R131, R150). -/
theorem initOn_form (p : Path) : AccForm p e (initOn p e) := by
  cases p with
  | reference => exact h.xorIn_lt
  | table =>
    cases hv : e.variant with
    | none => exact absurd hv h.variant_ne_none
    | reflected =>
      rw [accForm_reflected hv]
      simpa [initOn, initTable, hv] using h.reflectedXorIn_lt
    | nonreflected =>
      rw [accForm_nonreflected hv]
      simpa [initOn, initTable, hv] using h.shiftedXorIn_form
    | fast =>
      rw [accForm_fast hv]
      simp [initOn, initTable, hv]

/-- BYTE keeps the form of its path's register (R132 to R134, R151). -/
theorem stepOn_form {p : Path} {acc : Word} (ha : AccForm p e acc) (b : Byte) : AccForm p e (stepOn p e acc b) := by
  cases p with
  | reference => exact stepRef_lt h acc ha b
  | table =>
    cases hv : e.variant with
    | none => exact absurd hv h.variant_ne_none
    | reflected =>
      rw [accForm_reflected hv]
      simpa only [stepOn, stepTable, hv, stepReflected, h.mask_eq_maskOf] using toNat_and_maskOf_lt h.width_le _
    | nonreflected =>
      rw [accForm_nonreflected hv]
      simpa only [stepOn, stepTable, hv] using stepNonreflected_form h acc b
    | fast =>
      obtain ⟨hw, hcs⟩ := h.width_of_fast hv
      rw [accForm_fast hv] at ha ⊢
      have hn := (stepNonreflected_form h acc b).1
      rw [← fast_step h hv acc ha b, hw, hcs] at hn
      simpa only [stepOn, stepTable, hv] using hn

/-- FINAL's value is below `2^WIDTH` (R136, R152). -/
theorem finOn_lt {p : Path} {acc : Word} (ha : AccForm p e acc) : (finOn p e acc).toNat < 2 ^ e.w := by
  cases p with
  | reference =>
    refine toNat_xor_lt ?_ h.xorOut_lt
    split
    · exact toNat_mirror_lt acc h.width_le
    · exact ha
  | table =>
    cases hv : e.variant with
    | none => exact absurd hv h.variant_ne_none
    | reflected =>
      rw [accForm_reflected hv] at ha
      simpa only [finOn, finTable, hv] using toNat_xor_lt ha h.xorOut_lt
    | nonreflected =>
      obtain ⟨hlt, -⟩ := (accForm_nonreflected hv).1 ha
      have hs : (acc >>> e.cs).toNat < 2 ^ e.w := by
        rw [BitVec.toNat_ushiftRight, Nat.shiftRight_eq_div_pow]
        exact Nat.div_lt_of_lt_mul (by rwa [← Nat.pow_add, Nat.add_comm])
      simpa only [finOn, finTable, hv] using toNat_xor_lt hs h.xorOut_lt
    | fast =>
      rw [accForm_fast hv] at ha
      simpa only [finOn, finTable, hv, (h.width_of_fast hv).1] using ha

end

/-! ### The invariant under a step (R43) -/

theorem inv_reset (q : List HostEvent) (d : Option Word) : Inv (State.reset.setBus q d) :=
  ⟨nofun, fun _ => ⟨rfl, rfl, rfl, rfl⟩, nofun⟩

theorem Inv.of_same {s t : State} (h : Inv s) (hs : SameButErr s t) : Inv t := by
  obtain ⟨-, ha, hc, hm, hp, he⟩ := hs
  constructor
  · rw [hc, he]
    exact h.configured
  · rw [hc, he, hm, hp, ha]
    exact h.unconfigured
  · rw [hm, hc, hp, he, ha]
    exact h.opened

/-- A command that succeeds keeps the invariant. -/
theorem effectOf_inv {i : Instr} {s : State} (h : Inv s) (hn : errorOf i s = none) : Inv (effectOf i s) := by
  have opening (hc : s.cfgValid = true) (p : Path) : Inv (s.openMessage p (initOn p s.engine)) :=
    ⟨fun _ => h.configured hc, fun hf => absurd (hc.symm.trans hf) nofun,
      fun _ => ⟨hc, initOn_form (h.configured hc) p⟩⟩
  cases i with
  | configure w r =>
    obtain ⟨⟨hw1, hw2⟩, hm⟩ := (errorOf_configure_eq_none w r s).1 hn
    exact ⟨fun _ => configuredEngine_valid hw1 hw2 r s, nofun, fun ho => absurd (hm.symm.trans ho) nofun⟩
  | initT => exact opening ((errorOf_initT_eq_none s).1 hn) .table
  | initN => exact opening ((errorOf_initN_eq_none s).1 hn) .reference
  | byte b =>
    obtain ⟨hc, ha⟩ := h.opened ((errorOf_byte_eq_none b s).1 hn)
    exact ⟨h.configured, fun hf => absurd (hc.symm.trans hf) nofun,
      fun _ => ⟨hc, stepOn_form (h.configured hc) ha b⟩⟩
  | final =>
    obtain ⟨hc, -⟩ := h.opened ((errorOf_final_eq_none s).1 hn)
    exact ⟨h.configured, fun hf => absurd (hc.symm.trans hf) nofun, nofun⟩
  | mirror n => exact ⟨h.configured, h.unconfigured, h.opened⟩
  | tblrd i => exact ⟨h.configured, h.unconfigured, h.opened⟩

theorem Inv.setBus {s : State} (h : Inv s) (q : List HostEvent) (d : Option Word) : Inv (s.setBus q d) :=
  ⟨h.configured, h.unconfigured, h.opened⟩

theorem Inv.setErr {s : State} (h : Inv s) (e : Err) : Inv (s.setErr e) :=
  ⟨h.configured, h.unconfigured, h.opened⟩

/-- Every step that answers keeps the invariant. -/
theorem step_inv {s t : State} (h : Inv s) (hs : step s = .next t) : Inv t := by
  rcases step_outcome hs with hsame | ⟨-, rest, rfl⟩ | ⟨i, rest, -, hn, rfl⟩
  · exact h.of_same hsame
  · exact inv_reset rest none
  · exact (effectOf_inv (h.setBus rest none) hn).setErr .ok

/-- Every reachable state meets the invariant. -/
theorem Reachable.inv {s : State} (h : Reachable s) : Inv s :=
  h.of_step (fun evs => inv_reset evs none) (fun _ _ => step_inv)

end Sys2Proof.Machine
end

section
/-! The statements of 10_state.md. -/

namespace Sys2Proof.Machine

/-! ### R21: ARG0 to ARG2 -/

/-- `s` with other operand registers. -/
def State.withArgs (s : State) (a0 a1 a2 : Word) : State := { s with arg0 := a0, arg1 := a1, arg2 := a2 }

theorem execute_args {cmd : Word} {s t : State} (h : execute cmd s = .next t) :
    t.arg0 = s.arg0 ∧ t.arg1 = s.arg1 ∧ t.arg2 = s.arg2 := by
  rcases execute_cases h with ⟨_, -, rfl⟩ | ⟨i, -, hi⟩
  · exact ⟨rfl, rfl, rfl⟩
  · rcases exec_cases hi with ⟨e, -, -, rfl⟩ | ⟨-, rfl⟩
    · exact ⟨rfl, rfl, rfl⟩
    · exact effectOf_args i s

/-- The error check of a command reads no operand register. -/
theorem errorOf_withArgs (i : Instr) (s : State) (a0 a1 a2 : Word) :
    errorOf i (s.withArgs a0 a1 a2) = errorOf i s := by
  cases i <;> rfl

/-- A command whose effect reads no operand register runs alike whatever they hold. -/
theorem exec_withArgs {i : Instr} {s : State} {a0 a1 a2 : Word}
    (h : effectOf i (s.withArgs a0 a1 a2) = (effectOf i s).withArgs a0 a1 a2) :
    ∃ t, exec i s = .next t ∧ exec i (s.withArgs a0 a1 a2) = .next (t.withArgs a0 a1 a2) := by
  cases he : errorOf i s with
  | some e => exact ⟨_, exec_of_error he, exec_of_error ((errorOf_withArgs i s a0 a1 a2).trans he)⟩
  | none =>
    refine ⟨_, exec_of_success he, ?_⟩
    rw [exec_of_success ((errorOf_withArgs i s a0 a1 a2).trans he), h]
    rfl

/-- A host write to a register and a host read of it: the read returns what the register holds after the write. -/
theorem run_write_read {s u : State} {r : Reg} {v : Word} {rest : List HostEvent}
    (hp : s.pending = .write r.offset .word v :: .read r.offset .word :: rest)
    (hw : writeReg r v (s.setBus (.read r.offset .word :: rest) none) = .next u)
    (hu : u.pending = .read r.offset .word :: rest) : ∃ t, run 2 s = .next t ∧ t.readData = some (readReg r u) := by
  refine ⟨u.setBus rest (some (readReg r u)), ?_, rfl⟩
  rw [run_succ_of_step ((step_write hp).trans hw), run_succ_of_step (step_read hu), run_zero]

/-- Settles O1: the error check reads no operand register, and only the effects of CONFIGURE and MIRROR do. -/
theorem operandRegistersBelongToTheHost : Obligations.OperandRegistersBelongToTheHost := by
  refine ⟨fun _ _ _ => execute_args, ?_, ?_, ?_, ?_⟩
  · intro w r s t h hok
    obtain ⟨hn, rfl⟩ := exec_succeeded h hok
    obtain ⟨⟨-, hw⟩, -⟩ := (errorOf_configure_eq_none w r s).1 hn
    exact configuredEngine_params hw r s
  · intro n s a1 a2
    obtain ⟨t, ht, ht'⟩ := exec_withArgs (i := .mirror n) (s := s) (a0 := s.arg0) (a1 := a1) (a2 := a2) rfl
    have harg0 : t.withArgs s.arg0 a1 a2 = { t with arg1 := a1, arg2 := a2 } := by
      rcases exec_cases ht with ⟨_, -, -, rfl⟩ | ⟨-, rfl⟩ <;> rfl
    refine ⟨t, ht, fun hok => ?_, harg0 ▸ ht'⟩
    obtain ⟨-, rfl⟩ := exec_succeeded ht hok
    rfl
  · intro i s a0 a1 a2 hc hm
    refine exec_withArgs ?_
    cases i with
    | configure w r => exact absurd rfl (hc w r)
    | mirror n => exact absurd rfl (hm n)
    | _ => rfl
  · intro s off v rest hoff hp
    simp only [List.mem_cons, List.not_mem_nil, or_false] at hoff
    rcases hoff with rfl | rfl | rfl
    · exact run_write_read (r := .arg0) hp rfl rfl
    · exact run_write_read (r := .arg1) hp rfl rfl
    · exact run_write_read (r := .arg2) hp rfl rfl

/-! ### R22: RESULT -/

/-- A step that changes RESULT is a reset or a successful FINAL, MIRROR or TBLRD. -/
theorem step_result {s t : State} (h : step s = .next t) (hne : t.result ≠ s.result) :
    s.resets ∨ (t.err = .ok ∧ (s.runs .final ∨ (∃ n, s.runs (.mirror n)) ∨ ∃ i, s.runs (.tblrd i))) := by
  rcases step_outcome h with hs | ⟨hr, -⟩ | ⟨i, rest, hi, -, rfl⟩
  · exact absurd hs.result hne
  · exact .inl hr
  · cases i with
    | final => exact .inr ⟨rfl, .inl hi⟩
    | mirror n => exact .inr ⟨rfl, .inr (.inl ⟨n, hi⟩)⟩
    | tblrd i => exact .inr ⟨rfl, .inr (.inr ⟨i, hi⟩)⟩
    | _ => exact absurd rfl hne

/-- Settles O2, by the cases of a step, and the bound of FINAL's value for a register of its path's form. -/
theorem resultWrittenOnlyBySuccess : Obligations.ResultWrittenOnlyBySuccess := by
  refine ⟨fun _ _ => step_result, ?_, ?_, ?_, ?_⟩
  · intro cmd s t h he
    rw [execute_failed h he, State.setErr_result]
  · intro s hinv hm
    obtain ⟨hc, ha⟩ := hinv.opened hm
    exact ⟨_, execFinal_of_open hm, rfl, rfl, finOn_lt (hinv.configured hc) ha⟩
  · intro s n hn
    exact ⟨_, execMirror_of_le hn s, rfl, rfl⟩
  · intro s hc i hi
    exact ⟨_, execTblrd_of_valid hc i, rfl, by simp [tableRead, hi]⟩

/-! ### R25: CFG_VALID -/

/-- An engine in force was built by one CONFIGURE of the run that reached it: the last one that succeeded. -/
theorem run_engine_origin {s₀ s : State} (h0 : s₀.cfgValid = false) {k : Nat} (h : run k s₀ = .next s)
    (hc : s.cfgValid = true) :
    ∃ (j w : Nat) (r : Bool) (u v : State), j < k ∧ run j s₀ = .next u ∧ u.runs (.configure w r) ∧
      step u = .next v ∧ v.err = .ok ∧ s.engine = configuredEngine w r u := by
  induction k generalizing s with
  | zero =>
    cases h
    exact absurd (h0.symm.trans hc) nofun
  | succ k ih =>
    obtain ⟨p, hp, hs⟩ := run_succ_last h
    rcases step_engine hs with ⟨he, hcp⟩ | ⟨-, -, hf⟩ | ⟨w, r, hr, hok, he, -⟩
    · obtain ⟨j, w, r, u, v, hj, hu, hrest⟩ := ih hp (hcp ▸ hc)
      exact ⟨j, w, r, u, v, by omega, hu, he ▸ hrest⟩
    · exact absurd (hf.symm.trans hc) nofun
    · exact ⟨k, w, r, p, s, by omega, hp, hr, hs, hok, he⟩

/-- Settles O4, by the cases of a step and, for the engine in force, by induction on the run. -/
theorem onlyResetClearsCfgValid : Obligations.OnlyResetClearsCfgValid := by
  refine ⟨rfl, ?_, ?_, ?_, fun evs k s => run_engine_origin rfl⟩
  · intro w r s t h hok
    obtain ⟨-, rfl⟩ := exec_succeeded h hok
    rfl
  · intro s t h hne
    rcases step_engine h with ⟨-, hc⟩ | ⟨hr, -, hc⟩ | ⟨w, r, hr, hok, -, hc⟩
    · exact absurd hc hne
    · exact .inr ⟨hc, hr⟩
    · exact .inl ⟨hc, hok, w, r, hr⟩
  · intro s hc
    exact ⟨openOn_of_invalid hc .table, openOn_of_invalid hc .reference, execTblrd_of_invalid hc⟩

/-! ### R26: MSG_OPEN -/

/-- Settles O5, by the cases of a step: only INIT, FINAL and reset write MSG_OPEN. -/
theorem msgOpenFollowsInitAndFinal : Obligations.MsgOpenFollowsInitAndFinal := by
  refine ⟨rfl, ?_, ?_, ?_⟩
  · rintro s t (h | h) hok <;> obtain ⟨-, rfl⟩ := exec_succeeded h hok <;> rfl
  · intro s t h hok
    obtain ⟨-, rfl⟩ := exec_succeeded h hok
    rfl
  · intro s t h hne
    rcases step_outcome h with hs | ⟨hr, _, rfl⟩ | ⟨i, rest, hi, -, rfl⟩
    · exact absurd hs.msgOpen hne
    · exact .inr ⟨rfl, .inr hr⟩
    · cases i with
      | initT => exact .inl ⟨rfl, rfl, .inl hi⟩
      | initN => exact .inl ⟨rfl, rfl, .inr hi⟩
      | final => exact .inr ⟨rfl, .inl ⟨rfl, hi⟩⟩
      | _ => exact absurd rfl hne

/-! ### R27: PATH -/

/-- Settles O6, by the cases of a step: only INIT and reset write PATH. -/
theorem pathFollowsTheLastInit : Obligations.PathFollowsTheLastInit := by
  refine ⟨rfl, ?_, ?_, ?_, ?_, ?_⟩
  · intro s t h hok
    obtain ⟨-, rfl⟩ := exec_succeeded h hok
    rfl
  · intro s t h hok
    obtain ⟨-, rfl⟩ := exec_succeeded h hok
    rfl
  · intro s t h hne
    rcases step_outcome h with hs | ⟨hr, -⟩ | ⟨i, rest, hi, -, rfl⟩
    · exact absurd hs.path hne
    · exact .inl hr
    · cases i with
      | initT => exact .inr ⟨rfl, .inl ⟨hi, rfl⟩⟩
      | initN => exact .inr ⟨rfl, .inr ⟨hi, rfl⟩⟩
      | _ => exact absurd rfl hne
  · intro s b hm
    refine ⟨_, execByte_of_open hm b, ?_⟩
    cases s.path <;> simp [stepOn]
  · intro s hm
    refine ⟨_, execFinal_of_open hm, ?_⟩
    cases s.path <;> simp [finOn]

/-! ### R28: VARIANT -/

/-- A masked operand is zero when its low bits are. -/
theorem and_maskOf_eq_zero {n : Nat} (hn : n ≤ 32) (v : Word) : v &&& maskOf n = 0#32 ↔ v.toNat % 2 ^ n = 0 := by
  rw [← BitVec.toNat_inj, toNat_and_maskOf hn, BitVec.toNat_zero]

/-- Settles O7, by the variant choice of R105 on the masked operands and the cases of a step. -/
theorem variantWrittenOnlyByConfigure : Obligations.VariantWrittenOnlyByConfigure := by
  refine ⟨rfl, ?_, ?_, rfl, rfl, rfl, rfl, fun s h hc => (h.configured hc).variant_ne_none⟩
  · intro w r s t h hok
    obtain ⟨-, rfl⟩ := exec_succeeded h hok
    refine ⟨variantOf_eq_reflected, variantOf_eq_fast.trans ?_, variantOf_ne_none _ _ _ _⟩
    refine and_congr_right fun _ => and_congr_right ?_
    rintro rfl
    rw [and_maskOf_eq_zero (by omega), and_maskOf_eq_zero (by omega)]
  · intro s t h hne
    rcases step_engine h with ⟨he, -⟩ | ⟨hr, -, -⟩ | ⟨w, r, hr, hok, -, -⟩
    · exact absurd (congrArg Engine.variant he) hne
    · exact .inl hr
    · exact .inr ⟨hok, w, r, hr⟩

/-! ### R31, R107: the engine -/

/-- Settles O9, by the cases of a step. -/
theorem engineReplacedWholeOrNotAtAll : Obligations.EngineReplacedWholeOrNotAtAll := by
  constructor
  · intro s t h
    rcases step_engine h with ⟨he, -⟩ | ⟨hr, he, -⟩ | ⟨w, r, hr, hok, he, -⟩
    · exact .inl he
    · exact .inr (.inl ⟨hr, by rw [he]⟩)
    · exact .inr (.inr ⟨w, r, hr, hok, he⟩)
  · intro w r s t h hne
    rcases exec_cases h with ⟨_, -, -, rfl⟩ | ⟨-, rfl⟩
    · exact ⟨rfl, rfl⟩
    · exact absurd rfl hne

/-! ### R35: CFG -/

/-- A field read back from its place in a word. -/
theorem extractLsb'_placeField_same {n : Nat} (lo m : Nat) (v : BitVec n) (h : lo + m ≤ 32) :
    (placeField lo v).extractLsb' lo m = v.setWidth m := by
  apply BitVec.eq_of_getLsbD_eq
  intro i hi
  rw [BitVec.getLsbD_extractLsb', getLsbD_placeField, BitVec.getLsbD_setWidth]
  simp [hi, show lo + i < 32 by omega]

/-- A field leaves the bits beside its place zero. -/
theorem extractLsb'_placeField_disjoint {n : Nat} (lo lo' m : Nat) (v : BitVec n)
    (h : lo' + m ≤ lo ∨ lo + n ≤ lo') :
    (placeField lo v).extractLsb' lo' m = 0#m := by
  apply BitVec.eq_of_getLsbD_eq
  intro i hi
  rcases h with h | h
  · simp [getLsbD_placeField, show ¬ lo ≤ lo' + i by omega]
  · simp [getLsbD_placeField, BitVec.getLsbD_of_ge v (lo' + i - lo) (by omega)]

/-- The registers of the engine fit WIDTH, whether the engine is in force or that of reset. -/
theorem Inv.registers_fit {s : State} (h : Inv s) :
    s.engine.poly.toNat < 2 ^ s.engine.w ∧ s.engine.xorIn.toNat < 2 ^ s.engine.w ∧
    s.engine.xorOut.toNat < 2 ^ s.engine.w ∧ s.engine.mask.toNat < 2 ^ s.engine.w ∧
    s.engine.msbMask.toNat < 2 ^ s.engine.w ∧ s.engine.reflectedXorIn.toNat < 2 ^ s.engine.w ∧
    s.engine.shiftedXorIn.toNat < 2 ^ (s.engine.w + s.engine.cs) := by
  cases hc : s.cfgValid with
  | true =>
    have hv := h.configured hc
    exact ⟨hv.poly_lt, hv.xorIn_lt, hv.xorOut_lt, hv.mask_lt, hv.msbMask_lt, hv.reflectedXorIn_lt,
      hv.shiftedXorIn_form.1⟩
  | false =>
    obtain ⟨he, -⟩ := h.unconfigured hc
    rw [he]
    exact ⟨Nat.one_pos, Nat.one_pos, Nat.one_pos, Nat.one_pos, Nat.one_pos, Nat.one_pos, Nat.one_pos⟩

/-- The layout of CFG (R35). -/
theorem cfgWord_fields (s : State) :
    (cfgWord s).extractLsb' 0 8 = s.engine.width.setWidth 8 ∧
    (cfgWord s).extractLsb' 8 1 = (if s.engine.reflect then 1#1 else 0#1) ∧
    (cfgWord s).extractLsb' 9 7 = 0#7 ∧
    (cfgWord s).extractLsb' 16 3 = s.engine.crcShift ∧
    (cfgWord s).extractLsb' 19 13 = 0#13 := by
  refine ⟨?_, ?_, ?_, ?_, ?_⟩ <;>
    simp (disch := omega) only [cfgWord, BitVec.extractLsb'_or, extractLsb'_placeField_same,
      extractLsb'_placeField_disjoint, BitVec.or_zero, BitVec.zero_or, BitVec.setWidth_eq]
  cases s.engine.reflect <;> rfl

/-- Settles O10, by the fields placed in CFG, the writes the bus ignores, and the bounds of a valid engine. -/
theorem cfgWordLayout : Obligations.CfgWordLayout := by
  refine ⟨cfgWord_fields, rfl, ?_, fun s h => ⟨fun hc => ?_, h.registers_fit⟩⟩
  · intro s off v rest hoff hp
    simp only [List.mem_cons, List.not_mem_nil, or_false] at hoff
    rcases hoff with rfl | rfl | rfl | rfl | rfl | rfl | rfl | rfl
    · exact step_write (r := .cfg) hp
    · exact step_write (r := .poly) hp
    · exact step_write (r := .xorIn) hp
    · exact step_write (r := .xorOut) hp
    · exact step_write (r := .mask) hp
    · exact step_write (r := .msbMask) hp
    · exact step_write (r := .reflectedXorIn) hp
    · exact step_write (r := .shiftedXorIn) hp
  · exact ⟨(h.configured hc).width_pos, (h.configured hc).width_le⟩

/-! ### R39: ACC -/

/-- INIT overwrites ACC whatever it held (R39, R161, R162). -/
theorem openOn_setAcc {s : State} (hc : s.cfgValid = true) (p : Path) (a : Word) :
    openOn p (s.setAcc a) = openOn p s := by
  rw [openOn_of_valid hc, openOn_of_valid (s := s.setAcc a) hc]
  rfl

/-- Settles O11, by the cases of a step and the invariant. -/
theorem accWrittenOnlyByInitAndByte : Obligations.AccWrittenOnlyByInitAndByte := by
  refine ⟨?_, ?_, fun s a hc => ⟨openOn_setAcc hc .table a, openOn_setAcc hc .reference a⟩,
    fun s rest hp => step_read (r := .acc) hp, fun s h hm => (h.opened hm).2⟩
  · intro s t h hne
    rcases step_outcome h with hs | ⟨hr, -⟩ | ⟨i, rest, hi, -, rfl⟩
    · exact absurd hs.acc hne
    · exact .inl hr
    · cases i with
      | initT => exact .inr (.inl hi)
      | initN => exact .inr (.inr (.inl hi))
      | byte b => exact .inr (.inr (.inr ⟨b, hi⟩))
      | _ => exact absurd rfl hne
  · intro s t h
    rcases exec_cases h with ⟨_, -, -, rfl⟩ | ⟨-, rfl⟩ <;> rfl

/-! ### R42: TABLE before the first CONFIGURE -/

/-- `s` with another TABLE. -/
def State.withTable (s : State) (tab : Vector Word 256) : State := { s with engine := { s.engine with table := tab } }

/-- Two outcomes an observer without an engine cannot tell apart: the same, or next states without an engine that differ
in TABLE alone (R42). -/
inductive AlikeButTable (tab : Vector Word 256) : (o o' : Host.Outcome State Fault Refusal) → Prop where
  | same (o : Host.Outcome State Fault Refusal) : AlikeButTable tab o o
  | table (t : State) (h : t.cfgValid = false) : AlikeButTable tab (.next t) (.next (t.withTable tab))

theorem AlikeButTable.of_next {tab : Vector Word 256} {t : State} {o : Host.Outcome State Fault Refusal}
    (h : AlikeButTable tab (.next t) o) :
    o = .next t ∨ (t.cfgValid = false ∧ o = .next (t.withTable tab)) := by
  cases h with
  | same => exact .inl rfl
  | table _ hc => exact .inr ⟨hc, rfl⟩

theorem AlikeButTable.of_refused {tab : Vector Word 256} {r : Refusal} {o : Host.Outcome State Fault Refusal}
    (h : AlikeButTable tab (.refused r) o) : o = .refused r := by
  cases h
  rfl

/-- A command without an engine and without a message reads no TABLE: CONFIGURE replaces it, MIRROR keeps it, the others
are refused. -/
theorem exec_withTable {s : State} (hc : s.cfgValid = false) (hm : s.msgOpen = false) (tab : Vector Word 256)
    (i : Instr) : AlikeButTable tab (exec i s) (exec i (s.withTable tab)) := by
  have herr : errorOf i (s.withTable tab) = errorOf i s := by cases i <;> rfl
  rw [exec_eq, exec_eq, herr]
  cases he : errorOf i s with
  | some e => exact .table (s.setErr e) hc
  | none =>
    cases i with
    | configure w r => exact .same _
    | mirror n => exact .table ((s.setResult (mirror s.arg0 n)).setErr .ok) hc
    | initT | initN | tblrd => simp [hc] at he
    | byte | final => simp [hm] at he

theorem writeReg_withTable {s : State} (hc : s.cfgValid = false) (hm : s.msgOpen = false) (tab : Vector Word 256)
    (r : Reg) (v : Word) : AlikeButTable tab (writeReg r v s) (writeReg r v (s.withTable tab)) := by
  cases r with
  | cmd =>
    show AlikeButTable tab (execute v s) (execute v (s.withTable tab))
    cases hd : decode v with
    | illegal d =>
      rw [execute_of_illegal hd, execute_of_illegal hd]
      exact .table (s.setErr .illegalCommand) hc
    | command i =>
      rw [execute_of_decode hd, execute_of_decode hd]
      exact exec_withTable hc hm tab i
  | arg0 => exact .table (s.setArg0 v) hc
  | arg1 => exact .table (s.setArg1 v) hc
  | arg2 => exact .table (s.setArg2 v) hc
  | _ => exact .table s hc

/-- No host read shows TABLE (R36, R51). -/
theorem readReg_withTable (r : Reg) (s : State) (tab : Vector Word 256) :
    readReg r (s.withTable tab) = readReg r s := by
  cases r <;> rfl

theorem perform_withTable {s : State} (hc : s.cfgValid = false) (hm : s.msgOpen = false) (tab : Vector Word 256)
    (ev : HostEvent) : AlikeButTable tab (perform ev s) (perform ev (s.withTable tab)) := by
  cases ev with
  | reset => exact .same _
  | read off width =>
    simp only [perform, hostRead, readReg_withTable]
    split
    · split
      · exact .same _
      · next r _ => exact .table (s.setBus s.pending (some (readReg r s))) hc
    · exact .same _
  | write off width v =>
    simp only [perform, hostWrite]
    split
    · split
      · exact .same _
      · next r _ => exact writeReg_withTable hc hm tab r v
    · exact .same _

theorem step_withTable {s : State} (hc : s.cfgValid = false) (hm : s.msgOpen = false) (tab : Vector Word 256) :
    AlikeButTable tab (step s) (step (s.withTable tab)) := by
  cases hp : s.pending with
  | nil =>
    rw [step_idle hp, step_idle (s := s.withTable tab) hp]
    exact .table s hc
  | cons ev rest =>
    rw [step_event hp, step_event (s := s.withTable tab) hp]
    exact perform_withTable (s := s.setBus rest none) hc hm tab ev

/-- Settles O12: without an engine (and so without a message) no access and no command reads TABLE. -/
theorem resetValuesAndUnobservableTable : Obligations.ResetValuesAndUnobservableTable := by
  refine ⟨fun r => by cases r <;> rfl, by decide, fun s tab h hc => ?_⟩
  obtain ⟨-, hm, -, -⟩ := h.unconfigured hc
  have halike := step_withTable hc hm tab
  exact ⟨fun r hr => (hr ▸ halike).of_refused, fun t ht => (ht ▸ halike).of_next⟩

/-! ### R32, R34, R43: every reachable state -/

/-- Settles O15: the invariant holds of every reachable state, and a valid engine meets the relations. -/
theorem reachableStatesMeetTheRelations : Obligations.ReachableStatesMeetTheRelations := by
  intro s hs
  have h := hs.inv
  refine ⟨fun hm => (h.opened hm).1, fun hc => ?_, fun hc => ?_⟩
  · have hv := h.configured hc
    have hpos := hv.width_pos
    have hle := hv.width_le
    have hcs := hv.crcShift_eq
    have hmask := hv.mask_eq
    rw [← hv.two_mul_msbMask] at hmask
    obtain ⟨hlt, hdvd⟩ := hv.shiftedXorIn_form
    exact ⟨hv.variant_ne_none, hpos, hle, hv.poly_lt, hv.xorIn_lt, hv.xorOut_lt, hv.msbMask_eq, hv.mask_eq, hmask,
      by omega, by omega, by omega, hv.align_bounds.1, hv.align_bounds.2, hv.reflectedXorIn_lt, hlt, hdvd⟩
  · obtain ⟨he, -⟩ := h.unconfigured hc
    rw [he]
    exact ⟨rfl, rfl, rfl, rfl, rfl⟩

end Sys2Proof.Machine
end

section
/-! The statements of 20_memory.md about CMD and host reads (R55, R56). -/

namespace Sys2Proof.Machine

/-- Settles O19: CMD is the register at offset 0x00, and what it reads as is 0. -/
theorem cmdWriteExecutesCmdReadReturnsZero : Obligations.CmdWriteExecutesCmdReadReturnsZero :=
  fun _ _ _ => ⟨step_cmd, step_read (r := .cmd)⟩

/-- A host read that answers is a 32-bit read of an assigned register, and puts its value on the bus (R52, R53, R56). -/
theorem step_read_cases {s t : State} {off : BitVec 8} {width : AccessWidth} {rest : List HostEvent}
    (hp : s.pending = .read off width :: rest) (h : step s = .next t) :
    ∃ r : Reg, off = r.offset ∧ width = .word ∧ t = s.setBus rest (some (readReg r s)) := by
  rw [step_event hp] at h
  obtain ⟨r, hword, hr, rfl⟩ := hostRead_cases h
  refine ⟨r, (offset_of_regAt hr).symm, ?_, by simp⟩
  cases width with
  | word => rfl
  | byte | half => simp [isWordAccess] at hword

/-- Settles O20: no register's value depends on the bus fields, which are all that a read changes. -/
theorem hostReadsHaveNoSideEffect : Obligations.HostReadsHaveNoSideEffect := by
  intro s t off width rest hp h
  obtain ⟨r, rfl, rfl, rfl⟩ := step_read_cases hp h
  refine ⟨rfl, ⟨r, regAt_offset r, rfl⟩, ?_⟩
  rintro rest' rfl
  have hagain := step_read (s := s.setBus (.read r.offset .word :: rest') (some (readReg r s))) rfl
  simpa using hagain

end Sys2Proof.Machine
end

section
/-! The layer under the statements of 30_encoding.md: every word without reserved bits is a packed word, what the
decoder answers on it opcode by opcode, which words are illegal (R75 to R77), and when a row covers a word (R74). -/

namespace Sys2Proof

/-! ### The decoder, opcode by opcode (R77) -/

theorem exists_packWord {cmd : Word} (h : reservedField cmd = 0#15) : ∃ f a op, cmd = packWord f a op :=
  ⟨_, _, _, (packWord_fields h).symm⟩

theorem decode_of_reserved {cmd : Word} (h : reservedField cmd ≠ 0#15) : decode cmd = .illegal .reservedNotZero :=
  if_pos h

@[simp] theorem decode_packWord_configure (f : Bool) (a : Byte) :
    decode (packWord f a 0x01#8) = .command (.configure a.toNat f) := by
  simp [decode]

@[simp] theorem decode_packWord_init (f : Bool) (a : Byte) :
    decode (packWord f a 0x02#8) =
      if a ≠ 0#8 then .illegal .operandNotZero else .command (if f then .initN else .initT) := by
  cases f <;> simp [decode]

@[simp] theorem decode_packWord_byte (f : Bool) (a : Byte) :
    decode (packWord f a 0x03#8) = if f then .illegal .flagNotZero else .command (.byte a) := by
  simp [decode]

@[simp] theorem decode_packWord_final (f : Bool) (a : Byte) :
    decode (packWord f a 0x04#8) =
      if f then .illegal .flagNotZero else if a ≠ 0#8 then .illegal .operandNotZero else .command .final := by
  simp [decode]

@[simp] theorem decode_packWord_mirror (f : Bool) (a : Byte) :
    decode (packWord f a 0x05#8) = if f then .illegal .flagNotZero else .command (.mirror a.toNat) := by
  simp [decode]

@[simp] theorem decode_packWord_tblrd (f : Bool) (a : Byte) :
    decode (packWord f a 0x06#8) = if f then .illegal .flagNotZero else .command (.tblrd a.toNat) := by
  simp [decode]

theorem decode_packWord_unassigned (f : Bool) (a : Byte) {op : Byte} (h : op.toNat = 0 ∨ 7 ≤ op.toNat) :
    decode (packWord f a op) = .illegal .unassignedOpcode := by
  simp only [decode, reservedField_packWord, opcodeField_packWord, ne_eq, not_true_eq_false, if_false]
  split
  case h_7 => rfl
  all_goals omega

/-- Six opcodes are assigned, the others are not (R74, R76). -/
theorem opcode_cases (op : Byte) :
    op = 0x01#8 ∨ op = 0x02#8 ∨ op = 0x03#8 ∨ op = 0x04#8 ∨ op = 0x05#8 ∨ op = 0x06#8 ∨
      (op.toNat = 0 ∨ 7 ≤ op.toNat) := by
  bv_omega

/-- A verdict behind a check is a command exactly when the check passes and the verdict is. -/
theorem check_eq_command {c : Prop} [Decidable c] {d : DecodeError} {v : Verdict} {i : Instr} :
    (if c then .illegal d else v) = .command i ↔ ¬ c ∧ v = .command i := by
  by_cases h : c
  · simp [h]
  · simp [h]

/-- A verdict behind a check is illegal exactly when the check fails or the verdict is. -/
theorem check_illegal_iff {c : Prop} [Decidable c] {e : DecodeError} {v : Verdict} :
    (∃ d, (if c then .illegal e else v) = .illegal d) ↔ c ∨ ∃ d, v = .illegal d := by
  by_cases h : c
  · simp [h]
  · simp [h]

theorem reserved_of_decode {cmd : Word} {i : Instr} (h : decode cmd = .command i) : reservedField cmd = 0#15 :=
  Decidable.not_not.1 (check_eq_command.1 h).1

/-- What decodes has no bit the command does not carry: the word is the command's own (R75, R77). -/
theorem encode_of_decode {cmd : Word} {i : Instr} (h : decode cmd = .command i) : encode i = cmd := by
  obtain ⟨f, a, op, rfl⟩ := exists_packWord (reserved_of_decode h)
  obtain rfl | rfl | rfl | rfl | rfl | rfl | hop := opcode_cases op
  · rw [decode_packWord_configure] at h
    cases h
    simp only [encode, BitVec.ofNat_toNat, BitVec.setWidth_eq]
  · rw [decode_packWord_init, check_eq_command] at h
    obtain ⟨ha, hi⟩ := h
    obtain rfl : a = 0#8 := Decidable.not_not.1 ha
    cases hi
    cases f <;> rfl
  · rw [decode_packWord_byte, check_eq_command] at h
    obtain ⟨hf, hi⟩ := h
    obtain rfl : f = false := eq_false_of_ne_true hf
    cases hi
    rfl
  · rw [decode_packWord_final, check_eq_command, check_eq_command] at h
    obtain ⟨hf, ha, hi⟩ := h
    obtain rfl : f = false := eq_false_of_ne_true hf
    obtain rfl : a = 0#8 := Decidable.not_not.1 ha
    cases hi
    rfl
  · rw [decode_packWord_mirror, check_eq_command] at h
    obtain ⟨hf, hi⟩ := h
    obtain rfl : f = false := eq_false_of_ne_true hf
    cases hi
    simp only [encode, BitVec.ofNat_toNat, BitVec.setWidth_eq]
  · rw [decode_packWord_tblrd, check_eq_command] at h
    obtain ⟨hf, hi⟩ := h
    obtain rfl : f = false := eq_false_of_ne_true hf
    cases hi
    simp only [encode, BitVec.ofNat_toNat, BitVec.setWidth_eq]
  · rw [decode_packWord_unassigned f a hop] at h
    cases h

/-! ### Illegal words (R75, R76) -/

/-- RSV is not zero, OPCODE is unassigned, or F or A is set where the command has no such field (R75, R76). -/
def IllegalWord (cmd : Word) : Prop :=
  reservedField cmd ≠ 0#15 ∨ (opcodeField cmd).toNat = 0x00 ∨ 0x07 ≤ (opcodeField cmd).toNat ∨
    (0x03 ≤ (opcodeField cmd).toNat ∧ (opcodeField cmd).toNat ≤ 0x06 ∧ flagField cmd = true) ∨
    (((opcodeField cmd).toNat = 0x02 ∨ (opcodeField cmd).toNat = 0x04) ∧ operandField cmd ≠ 0#8)

theorem illegalWord_packWord_unassigned (f : Bool) (a : Byte) {op : Byte} (h : op.toNat = 0 ∨ 7 ≤ op.toNat) :
    IllegalWord (packWord f a op) := by
  obtain h0 | h7 := h
  · exact .inr (.inl (by simpa using h0))
  · exact .inr (.inr (.inl (by simpa using h7)))

/-- The decoder refuses exactly the illegal words (R75 to R77). -/
theorem decode_illegal_iff {cmd : Word} : (∃ d, decode cmd = .illegal d) ↔ IllegalWord cmd := by
  by_cases hr : reservedField cmd = 0#15
  · obtain ⟨f, a, op, rfl⟩ := exists_packWord hr
    obtain rfl | rfl | rfl | rfl | rfl | rfl | hop := opcode_cases op
    · simp [IllegalWord]
    · rw [decode_packWord_init, check_illegal_iff]
      simp [IllegalWord]
    · rw [decode_packWord_byte, check_illegal_iff]
      simp [IllegalWord]
    · rw [decode_packWord_final, check_illegal_iff, check_illegal_iff]
      simp [IllegalWord]
    · rw [decode_packWord_mirror, check_illegal_iff]
      simp [IllegalWord]
    · rw [decode_packWord_tblrd, check_illegal_iff]
      simp [IllegalWord]
    · exact iff_of_true ⟨_, decode_packWord_unassigned f a hop⟩ (illegalWord_packWord_unassigned f a hop)
  · exact iff_of_true ⟨_, decode_of_reserved hr⟩ (.inl hr)

/-- The decoder's verdict is a command on every word that is not illegal (R77). -/
theorem decode_command_iff {cmd : Word} : (∃ i, decode cmd = .command i) ↔ ¬ IllegalWord cmd := by
  rw [← decode_illegal_iff]
  cases decode cmd <;> simp

/-! ### The rows (R74) -/

/-- Every row fixes OPCODE and has RSV zero (R74). -/
theorem mask_of_row : ∀ r ∈ opcodeTable,
    opcodeField r.mask = BitVec.allOnes 8 ∧ reservedField r.mask = BitVec.allOnes 15 ∧
      reservedField r.pattern = 0#15 := by
  decide

/-- A word a row covers has the row's OPCODE, zeros in RSV, and the row's A and F where its mask has them (R74). -/
theorem fields_of_covers {r : OpcodeRow} (hr : r ∈ opcodeTable) {cmd : Word} (h : r.covers cmd = true) :
    opcodeField cmd = opcodeField r.pattern ∧ reservedField cmd = 0#15 ∧
      operandField cmd &&& operandField r.mask = operandField r.pattern ∧
      (flagField cmd && flagField r.mask) = flagField r.pattern := by
  obtain ⟨hop, hrsv, hzero⟩ := mask_of_row r hr
  have hfields := word_eq_iff_fields.1 (of_decide_eq_true h)
  rw [opcodeField_and, operandField_and, flagField_and, reservedField_and, hop, hrsv, hzero,
    BitVec.and_allOnes, BitVec.and_allOnes] at hfields
  obtain ⟨h1, h2, h3, h4⟩ := hfields
  exact ⟨h1, h4, h2, h3⟩

/-- A word of a row is its OPCODE with A and F clear where they must be 0, and so a command (R74, R77). -/
theorem decode_of_covers {r : OpcodeRow} (hr : r ∈ opcodeTable) {cmd : Word} (h : r.covers cmd = true) :
    ∃ i, decode cmd = .command i := by
  obtain ⟨hop, hrsv, ha, hf⟩ := fields_of_covers hr h
  obtain ⟨f, a, op, rfl⟩ := exists_packWord hrsv
  simp only [opcodeField_packWord, operandField_packWord, flagField_packWord] at hop ha hf
  simp only [opcodeTable, List.mem_cons, List.not_mem_nil, or_false] at hr
  obtain rfl | rfl | rfl | rfl | rfl | rfl | rfl := hr
  · obtain rfl : op = 0x01#8 := hop
    exact ⟨_, decode_packWord_configure f a⟩
  · obtain rfl : op = 0x02#8 := hop
    obtain rfl : a = 0#8 := BitVec.and_allOnes.symm.trans ha
    exact ⟨_, decode_packWord_init f 0#8⟩
  · obtain rfl : op = 0x02#8 := hop
    obtain rfl : a = 0#8 := BitVec.and_allOnes.symm.trans ha
    exact ⟨_, decode_packWord_init f 0#8⟩
  · obtain rfl : op = 0x03#8 := hop
    obtain rfl : f = false := (Bool.and_true f).symm.trans hf
    exact ⟨_, decode_packWord_byte false a⟩
  · obtain rfl : op = 0x04#8 := hop
    obtain rfl : a = 0#8 := BitVec.and_allOnes.symm.trans ha
    obtain rfl : f = false := (Bool.and_true f).symm.trans hf
    exact ⟨_, decode_packWord_final false 0#8⟩
  · obtain rfl : op = 0x05#8 := hop
    obtain rfl : f = false := (Bool.and_true f).symm.trans hf
    exact ⟨_, decode_packWord_mirror false a⟩
  · obtain rfl : op = 0x06#8 := hop
    obtain rfl : f = false := (Bool.and_true f).symm.trans hf
    exact ⟨_, decode_packWord_tblrd false a⟩

end Sys2Proof
end

section
/-! The statements of 30_encoding.md about the opcode map and the illegal words (R74 to R76). -/

namespace Sys2Proof.Machine

/-- Settles O27: a word that decodes is its command's own word, which its one row covers; a word that a row covers
decodes. -/
theorem opcodeRowsDecideDecoding : Obligations.OpcodeRowsDecideDecoding := by
  refine fun cmd => ⟨fun i h => ?_, fun d h => ?_⟩
  · rw [← encode_of_decode h]
    cases i with
    | configure w f => exact Laws.TableRow.configure w f
    | initT => exact Laws.TableRow.initT
    | initN => exact Laws.TableRow.initN
    | byte b => exact Laws.TableRow.byte b
    | final => exact Laws.TableRow.final
    | mirror n => exact Laws.TableRow.mirror n
    | tblrd n => exact Laws.TableRow.tblrd n
  · refine List.filter_eq_nil_iff.2 fun r hr hcov => ?_
    obtain ⟨i, hi⟩ := decode_of_covers hr hcov
    simp [h] at hi

/-- Settles O28: the decoder refuses exactly the illegal words, and a refused word changes ERR alone. -/
theorem illegalWordsExactly : Obligations.IllegalWordsExactly := by
  intro cmd s
  refine ⟨fun (hill : IllegalWord cmd) => ?_, fun (hleg : ¬ IllegalWord cmd) => ?_⟩
  · obtain ⟨d, hd⟩ := decode_illegal_iff.2 hill
    exact execute_of_illegal hd s
  · obtain ⟨i, hi⟩ := decode_command_iff.2 hleg
    exact ⟨i, hi, execute_of_decode hi s⟩

end Sys2Proof.Machine
end

section
/-! The layer under the statements of 40_bitmirror.md: the loop of R90 as a sum, and the mirror of a masked word, of the
mask, of 1 and of a mirror. -/

namespace Sys2Proof.Machine

/-- One round of the loop doubles the accumulator and adds the lowest bit of the value (R90). -/
theorem toNat_mirrorRound {acc : Word} (hacc : acc.toNat < 2 ^ 31) (v : Word) :
    ((acc <<< 1) ||| (v &&& 1#32)).toNat = 2 * acc.toNat + (if v.getLsbD 0 then 1 else 0) := by
  have hbit : (v &&& 1#32).toNat = if v.getLsbD 0 then 1 else 0 := by
    rw [BitVec.toNat_and, BitVec.toNat_ofNat, Nat.and_one_is_mod, BitVec.getLsbD, Nat.testBit_zero]
    rcases Nat.mod_two_eq_zero_or_one v.toNat with h | h <;> simp [h]
  have hlt : (v &&& 1#32).toNat < 2 ^ 1 := by rw [hbit]; split <;> decide
  have hshift : (acc <<< 1).toNat = acc.toNat <<< 1 := by
    rw [BitVec.toNat_shiftLeft, Nat.shiftLeft_eq]
    omega
  rw [BitVec.toNat_or, hshift, ← Nat.shiftLeft_add_eq_or_of_lt hlt, Nat.shiftLeft_eq, hbit]
  omega

/-- The loop as a sum: the accumulator moves up by `n` bits and the bits of the value come in below it in reverse, as
long as the accumulator leaves room for them (R90: no bit is lost on a 32-bit datapath). -/
theorem toNat_mirrorLoop {n : Nat} (hn : n ≤ 32) {acc : Word} (hacc : acc.toNat < 2 ^ (32 - n)) (v : Word) :
    (mirrorLoop n acc v).toNat = acc.toNat * 2 ^ n +
      ((List.range n).map fun k => (if v.getLsbD k then 1 else 0) * 2 ^ (n - 1 - k)).sum := by
  induction n generalizing acc v with
  | zero => simp [mirrorLoop]
  | succ n ih =>
    have hroom : 2 ^ (32 - n) = 2 * 2 ^ (32 - (n + 1)) := by
      rw [← Nat.pow_succ', show 32 - n = (32 - (n + 1)).succ by omega]
    have h31 : 2 ^ (32 - (n + 1)) ≤ 2 ^ 31 := Nat.pow_le_pow_right (by decide) (by omega)
    have hround := toNat_mirrorRound (Nat.lt_of_lt_of_le hacc h31) v
    have hacc' : ((acc <<< 1) ||| (v &&& 1#32)).toNat < 2 ^ (32 - n) := by
      rw [hround, hroom]
      split <;> omega
    have hbit (k : Nat) : (v >>> 1).getLsbD k = v.getLsbD (k + 1) := by
      rw [BitVec.getLsbD_ushiftRight, Nat.add_comm]
    have hexp (k : Nat) : n - 1 - k = n - (k + 1) := by omega
    rw [mirrorLoop, ih (by omega) hacc', hround, List.range_succ_eq_map]
    simp only [List.map_cons, List.map_map, List.sum_cons, Function.comp_def, Nat.add_sub_cancel, Nat.sub_zero, hbit,
      Nat.succ_eq_add_one, hexp]
    rw [Nat.add_mul, Nat.pow_succ', Nat.mul_comm 2, Nat.mul_assoc, Nat.add_assoc]

/-- The mirror as the sum of R90. -/
theorem toNat_mirror (v : Word) {n : Nat} (hn : n ≤ 32) :
    (mirror v n).toNat = ((List.range n).map fun k => (if v.getLsbD k then 1 else 0) * 2 ^ (n - 1 - k)).sum := by
  rw [mirror_of_le v hn, toNat_mirrorLoop hn (Nat.two_pow_pos _), BitVec.toNat_zero, Nat.zero_mul, Nat.zero_add]

/-- The mask is its own mirror (R91). -/
theorem mirror_maskOf {n : Nat} (hn : n ≤ 32) : mirror (maskOf n) n = maskOf n := by
  refine BitVec.eq_of_getLsbD_eq fun j _ => ?_
  rw [getLsbD_mirror _ hn, getLsbD_maskOf hn, getLsbD_maskOf hn]
  by_cases hj : j < n
  · simp [show n - 1 - j < n by omega]
  · simp [hj]

/-- The lowest bit goes to the top of the width (R91). -/
theorem mirror_one {n : Nat} (h1 : 1 ≤ n) (hn : n ≤ 32) : mirror 1#32 n = msbMaskOf n := by
  refine BitVec.eq_of_getLsbD_eq fun j hj32 => ?_
  rw [getLsbD_mirror _ hn, msbMaskOf, BitVec.getLsbD_shiftLeft, BitVec.getLsbD_one, BitVec.getLsbD_one, Bool.eq_iff_iff]
  simp only [Bool.and_eq_true, Bool.not_eq_true', decide_eq_true_eq, decide_eq_false_iff_not]
  omega

/-- Mirroring twice keeps the low bits, each in its place (R92). -/
theorem mirror_mirror (v : Word) {n : Nat} (hn : n ≤ 32) : mirror (mirror v n) n = v &&& maskOf n := by
  refine BitVec.eq_of_getLsbD_eq fun j _ => ?_
  rw [getLsbD_mirror _ hn, getLsbD_mirror _ hn, BitVec.getLsbD_and, getLsbD_maskOf hn]
  by_cases hj : j < n
  · simp [hj, show n - 1 - j < n by omega, show n - 1 - (n - 1 - j) = j by omega]
  · simp [hj]

/-- A word below `2^n` is its own low `n` bits (R10). -/
theorem and_maskOf_of_lt {v : Word} {n : Nat} (hn : n ≤ 32) (hv : v.toNat < 2 ^ n) : v &&& maskOf n = v := by
  rw [← BitVec.toNat_inj, toNat_and_maskOf hn, Nat.mod_eq_of_lt hv]

/-- The bits of the value at and above the width do not count: the masked value is the value mirrored twice, and its
mirror the third mirror, which is the first (R91). -/
theorem mirror_and_maskOf (v : Word) {n : Nat} (hn : n ≤ 32) : mirror (v &&& maskOf n) n = mirror v n := by
  rw [← mirror_mirror v hn, mirror_mirror (mirror v n) hn, and_maskOf_of_lt hn (toNat_mirror_lt v hn)]

end Sys2Proof.Machine
end

section
/-! The statements of 40_bitmirror.md about the mirror function (R90 to R92). -/

namespace Sys2Proof.Machine

/-- Settles O33, by the bits of the mirror and by the sum its loop computes. -/
theorem mirrorReversesTheLowBits : Obligations.MirrorReversesTheLowBits := by
  refine fun v n hn => ⟨toNat_mirror_lt v hn, fun k hk => ?_, toNat_mirror v hn⟩
  rw [getLsbD_mirror v hn, show n - 1 - (n - 1 - k) = k by omega, decide_eq_true (by omega), Bool.true_and]

/-- Settles O34, property by property; the involution on `[0, 2^n)` is the general one, where masking changes
nothing. -/
theorem mirrorPropertiesAndInvolution : Obligations.MirrorPropertiesAndInvolution := by
  refine ⟨fun v => mirror_of_le v (Nat.zero_le 32), fun v n hn =>
    ⟨(mirror_and_maskOf v hn).symm, toNat_mirror_lt v hn, mirror_maskOf hn, fun h1 => ?_, mirror_mirror v hn,
      fun hv => ?_⟩⟩
  · rw [mirror_one h1 hn, toNat_msbMaskOf h1 hn]
  · rw [mirror_mirror v hn, and_maskOf_of_lt hn hv]

end Sys2Proof.Machine
end

section
/-! The statements of 41_parameters_and_table.md about the width and the operands of CONFIGURE (R100, R101). -/

namespace Sys2Proof.Machine

/-! ### R101: only the low bits of the operands count -/

/-- Two words whose low `n` bits agree are masked alike (R10). -/
theorem and_maskOf_congr {n : Nat} (hn : n ≤ 32) {u v : Word} (h : u.toNat % 2 ^ n = v.toNat % 2 ^ n) :
    u &&& maskOf n = v &&& maskOf n := by
  rw [← BitVec.toNat_inj, toNat_and_maskOf hn, toNat_and_maskOf hn, h]

/-- Operands that agree below the width configure the same engine, derived constants, variant and TABLE included. -/
theorem configuredEngine_withArgs {w : Nat} (hw : w ≤ 32) (r : Bool) {s : State} {a0 a1 a2 : Word}
    (h0 : a0.toNat % 2 ^ w = s.arg0.toNat % 2 ^ w) (h1 : a1.toNat % 2 ^ w = s.arg1.toNat % 2 ^ w)
    (h2 : a2.toNat % 2 ^ w = s.arg2.toNat % 2 ^ w) :
    configuredEngine w r (s.withArgs a0 a1 a2) = configuredEngine w r s := by
  have hops : configureOperands w (s.withArgs a0 a1 a2) = configureOperands w s := by
    simp only [configureOperands, State.withArgs, and_maskOf_congr hw h0, and_maskOf_congr hw h1,
      and_maskOf_congr hw h2]
  rw [configuredEngine, hops, ← configuredEngine]

/-- Settles O37: the error check reads no operand register, and the effect reads them through the engine alone, which
masks them. -/
theorem operandBitsAboveWidthAreDropped : Obligations.OperandBitsAboveWidthAreDropped := by
  intro w r s a0 a1 a2 _ hw h0 h1 h2
  have heffect : effectOf (.configure w r) (s.withArgs a0 a1 a2) =
      (effectOf (.configure w r) s).withArgs a0 a1 a2 :=
    congrArg (s.withArgs a0 a1 a2).install (configuredEngine_withArgs hw r h0 h1 h2)
  obtain ⟨t, ht, ht'⟩ := exec_withArgs heffect
  refine ⟨t, ht, fun hok => ?_, ht'⟩
  obtain ⟨-, rfl⟩ := exec_succeeded ht hok
  exact ⟨rfl, rfl, rfl⟩

/-! ### R100: the width check -/

/-- Settles O36: the width check comes first, and a width that passes it leaves MESSAGE_OPEN or success. -/
theorem widthOutsideRangeIsInvalid : Obligations.WidthOutsideRangeIsInvalid := by
  refine fun w r s => ⟨fun hw => execConfigure_of_width (by omega) r s, fun h1 h2 => ?_⟩
  cases hm : s.msgOpen with
  | true => exact ⟨_, execConfigure_of_open h1 h2 r hm, nofun⟩
  | false => exact ⟨_, execConfigure_of_idle h1 h2 r hm, nofun⟩

end Sys2Proof.Machine
end

section
/-! The statements of 42_calculate_table.md: the fast path beside the non-reflected one (R135), and the checksum of the
empty input (R138, R153). -/

namespace Sys2Proof.Machine

section
variable {e : Engine} (h : e.Valid)
include h

/-- FAST means no REFLECT and no XOR value at either end of a message (R105). -/
theorem Engine.Valid.xor_of_fast (hv : e.variant = .fast) :
    e.reflect = false ∧ e.xorIn = 0#32 ∧ e.xorOut = 0#32 := by
  obtain ⟨hr, -, hi, ho⟩ := variantOf_eq_fast.1 (h.variant_eq ▸ hv)
  exact ⟨hr, hi, ho⟩

theorem Engine.Valid.variant_eq_reflected : e.variant = .reflected ↔ e.reflect = true := by
  rw [h.variant_eq]
  exact variantOf_eq_reflected

theorem Engine.Valid.reflect_of_nonreflected (hv : e.variant = .nonreflected) : e.reflect = false := by
  rw [← Bool.not_eq_true, ← h.variant_eq_reflected, hv]
  exact nofun

/-! ### R135: the fast path -/

/-- BYTE after BYTE, a FAST register is the non-reflected one: each step keeps the form in which the two agree. -/
theorem foldl_stepTable_of_fast (hv : e.variant = .fast) (bs : List Byte) {acc : Word} (ha : AccForm .table e acc) :
    bs.foldl (stepTable e) acc = bs.foldl (stepNonreflected e) acc := by
  induction bs generalizing acc with
  | nil => rfl
  | cons b bs ih =>
    have hstep : stepTable e acc b = stepNonreflected e acc b := by
      simpa only [stepTable, hv] using fast_step h hv acc ((accForm_fast hv).1 ha) b
    have hform : AccForm .table e (stepTable e acc b) := stepOn_form h ha b
    rw [List.foldl_cons, List.foldl_cons, ih hform, hstep]

/-- INIT.T of a FAST engine loads 0, and SHIFTED_XOR_IN is 0 with it (R131). -/
theorem initTable_of_fast (hv : e.variant = .fast) : initTable e = e.shiftedXorIn := by
  obtain ⟨-, hi, -⟩ := h.xor_of_fast hv
  rw [h.shiftedXorIn_eq_shift, hi, BitVec.zero_shiftLeft]
  simp only [initTable, hv]

/-- FAST has no CRC_SHIFT to undo and no XOR_OUT to apply (R136). -/
theorem finTable_of_fast (hv : e.variant = .fast) (acc : Word) : finTable e acc = (acc >>> e.cs) ^^^ e.xorOut := by
  obtain ⟨-, -, ho⟩ := h.xor_of_fast hv
  obtain ⟨-, hcs⟩ := h.width_of_fast hv
  rw [hcs, ho, BitVec.ushiftRight_zero, BitVec.xor_zero]
  simp only [finTable, hv]

/-! ### R138 and R153: the empty input -/

/-- On the empty input the paths agree: what INIT.T loads and the finish leaves of it is XOR_IN, mirrored when REFLECT
is set, before XOR_OUT on either path (R131, R136, R150, R152). -/
theorem calculate_nil : calculate e [] = calculateNoTable e [] := by
  simp only [calculate, calculateNoTable, List.foldl_nil, initRef, finRef]
  cases hv : e.variant with
  | none => exact absurd hv h.variant_ne_none
  | reflected => simp [initTable, finTable, hv, h.variant_eq_reflected.1 hv, h.reflectedXorIn_eq]
  | nonreflected =>
    simp [initTable, finTable, hv, h.reflect_of_nonreflected hv, h.shiftedXorIn_eq_shift,
      shift_unshift h e.xorIn h.xorIn_lt]
  | fast =>
    obtain ⟨hr, hi, ho⟩ := h.xor_of_fast hv
    simp [initTable, finTable, hv, hr, hi, ho]

end

theorem calculateNoTable_nil (e : Engine) :
    calculateNoTable e [] = (if e.reflect then mirror e.xorIn e.w else e.xorIn) ^^^ e.xorOut := rfl

/-- The rows of the catalog have legal widths, and parameters that fit them (R110). -/
theorem catalog_fits : ∀ m ∈ catalog, 1 ≤ m.width ∧ m.width ≤ 32 ∧
    m.poly.toNat < 2 ^ m.width ∧ m.xorIn.toNat < 2 ^ m.width ∧ m.xorOut.toNat < 2 ^ m.width := by decide

/-- XOR_IN, mirrored where the row says so, and XOR_OUT cancel in every row of the catalog but that of crc24, which has
XOR_OUT 0 and no REFLECT (R110). -/
theorem catalog_xor_values : ∀ m ∈ catalog, (if m.reflect then mirror m.xorIn m.width else m.xorIn) ^^^ m.xorOut =
    if m.name = "crc24" then 0xB704CE#32 else 0#32 := by decide

/-- Settles O42, from the fast step on one register, and from the form of ACC along the bytes of a message. -/
theorem fastPathEqualsNonreflected : Obligations.FastPathEqualsNonreflected := by
  refine fun e h hv => ⟨fun acc b ha => fast_step h hv acc ha b, initTable_of_fast h hv, finTable_of_fast h hv,
    fun bs => ?_⟩
  have hinit : AccForm .table e (initTable e) := initOn_form h .table
  rw [foldl_stepTable_of_fast h hv bs hinit, initTable_of_fast h hv]

/-- Settles O44: the reference path's checksum of no bytes is read off its definition, the table path agrees with it,
and a catalog row's parameters give its value. -/
theorem emptyInputChecksum : Obligations.EmptyInputChecksum := by
  refine ⟨fun e h => ⟨fun hv => ?_, fun hv => ?_, fun hv => ?_, fun hr => ?_, fun hr => ?_⟩, fun m hm => ?_⟩
  · rw [calculate_nil h, calculateNoTable_nil, if_pos (h.variant_eq_reflected.1 hv)]
  · simp [calculate_nil h, calculateNoTable_nil, h.reflect_of_nonreflected hv]
  · obtain ⟨hr, hi, ho⟩ := h.xor_of_fast hv
    simp [calculate_nil h, calculateNoTable_nil, hr, hi, ho]
  · simp [calculateNoTable_nil, hr]
  · simp [calculateNoTable_nil, hr]
  · obtain ⟨h1, h2, hp, hi, ho⟩ := catalog_fits m hm
    have hvalid : m.engine.Valid := build_valid h1 h2 m.reflect hp hi ho
    have hw : m.engine.w = m.width := build_w h2 m.reflect m.poly m.xorIn m.xorOut
    rw [calculate_nil hvalid, calculateNoTable_nil, hw]
    exact catalog_xor_values m hm

end Sys2Proof.Machine
end

section
/-! The registers of the two paths side by side: corresponding at INIT, kept so by every byte, and finished to the same
value (R38), and from it the agreement of the checksums (R154). -/

namespace Sys2Proof.Machine

/-! ### The correspondence, variant by variant (R38) -/

theorem sameRegister_reflected {e : Engine} (hv : e.variant = .reflected) {t r : Word} :
    SameRegister e t r ↔ t = mirror r e.w := by simp [SameRegister, hv]

theorem sameRegister_nonreflected {e : Engine} (hv : e.variant = .nonreflected) {t r : Word} :
    SameRegister e t r ↔ t = r <<< e.cs := by simp [SameRegister, hv]

theorem sameRegister_fast {e : Engine} (hv : e.variant = .fast) {t r : Word} :
    SameRegister e t r ↔ t = r := by simp [SameRegister, hv]

section
variable {e : Engine} (h : e.Valid)
include h

/-- The register of either path keeps its form along the bytes of a message (R38). -/
theorem foldl_stepOn_form {p : Path} (bs : List Byte) {acc : Word} (ha : AccForm p e acc) :
    AccForm p e (bs.foldl (stepOn p e) acc) := by
  induction bs generalizing acc with
  | nil => exact ha
  | cons b bs ih => exact ih (stepOn_form h ha b)

/-- What the two INITs load corresponds: XOR_IN in the form of the variant (R131, R150). -/
theorem sameRegister_init : SameRegister e (initTable e) (initRef e) := by
  cases hv : e.variant with
  | none => exact absurd hv h.variant_ne_none
  | reflected =>
    rw [sameRegister_reflected hv, initRef, ← h.reflectedXorIn_eq]
    simp only [initTable, hv]
  | nonreflected =>
    rw [sameRegister_nonreflected hv, initRef, ← h.shiftedXorIn_eq_shift]
    simp only [initTable, hv]
  | fast =>
    obtain ⟨-, hi, -⟩ := h.xor_of_fast hv
    rw [sameRegister_fast hv, initRef, hi]
    simp only [initTable, hv]

/-- A byte keeps the correspondence. A FAST register takes the non-reflected step, with no CRC_SHIFT in it (R132 to
R134, R151). -/
theorem sameRegister_step {t r : Word} (hr : AccForm .reference e r) (hs : SameRegister e t r) (b : Byte) :
    SameRegister e (stepTable e t b) (stepRef e r b) := by
  rw [accForm_reference] at hr
  cases hv : e.variant with
  | none => exact absurd hv h.variant_ne_none
  | reflected =>
    rw [sameRegister_reflected hv] at hs ⊢
    simpa only [stepTable, hv, hs] using reflected_step h (h.variant_eq_reflected.1 hv) r hr b
  | nonreflected =>
    rw [sameRegister_nonreflected hv] at hs ⊢
    simpa only [stepTable, hv, hs] using nonreflected_step h (h.reflect_of_nonreflected hv) r hr b
  | fast =>
    obtain ⟨hw, hcs⟩ := h.width_of_fast hv
    obtain ⟨hreflect, -, -⟩ := h.xor_of_fast hv
    have hstep := nonreflected_step h hreflect r hr b
    rw [hcs, BitVec.shiftLeft_zero, BitVec.shiftLeft_zero, ← fast_step h hv r (hw ▸ hr) b] at hstep
    rw [sameRegister_fast hv] at hs ⊢
    simpa only [stepTable, hv, hs] using hstep

/-- The correspondence along the bytes of a message, from any two registers in it (R38). -/
theorem sameRegister_foldl (bs : List Byte) {t r : Word} (hr : AccForm .reference e r) (hs : SameRegister e t r) :
    SameRegister e (bs.foldl (stepTable e) t) (bs.foldl (stepRef e) r) := by
  induction bs generalizing t r with
  | nil => exact hs
  | cons b bs ih => exact ih (stepOn_form h hr b) (sameRegister_step h hr hs b)

/-- Corresponding registers finish to the same value: the reference path mirrors at the end what the reflected table
path holds mirrored all along (R136, R152). -/
theorem finTable_eq_finRef {t r : Word} (hr : AccForm .reference e r) (hs : SameRegister e t r) :
    finTable e t = finRef e r := by
  cases hv : e.variant with
  | none => exact absurd hv h.variant_ne_none
  | reflected =>
    rw [(sameRegister_reflected hv).1 hs]
    simp only [finTable, finRef, hv, h.variant_eq_reflected.1 hv, if_true]
  | nonreflected =>
    rw [(sameRegister_nonreflected hv).1 hs]
    simp [finTable, finRef, hv, h.reflect_of_nonreflected hv, shift_unshift h r hr]
  | fast =>
    obtain ⟨hreflect, -, ho⟩ := h.xor_of_fast hv
    rw [(sameRegister_fast hv).1 hs]
    simp [finTable, finRef, hv, hreflect, ho]

end

/-- Settles O47: the two registers correspond from INIT on, so the two finishes agree. -/
theorem tablePathEqualsReferencePath : Obligations.TablePathEqualsReferencePath := by
  intro e bs h
  have hinit : AccForm .reference e (initRef e) := initOn_form h .reference
  have hform : AccForm .reference e (bs.foldl (stepRef e) (initRef e)) := foldl_stepOn_form h bs hinit
  have hsame := sameRegister_foldl h bs hinit (sameRegister_init h)
  exact finTable_eq_finRef h hform hsame

end Sys2Proof.Machine
end

section
/-! The statements of 44_message_commands.md about the message states, the end of a message, and what may stand inside
one (R160, R166, R167). -/

namespace Sys2Proof.Machine

/-! ### Commands around a message -/

/-- The command that opens a message on a path runs `openOn` (R161, R162). -/
theorem exec_initInstr (p : Path) (s : State) : exec (initInstr p) s = openOn p s := by cases p <;> rfl

/-- A word whose execution ends with an error keeps MSG_OPEN and ACC (R182). -/
theorem execute_failed_message {cmd : Word} {s t : State} (h : execute cmd s = .next t) (he : t.err ≠ .ok) :
    t.msgOpen = s.msgOpen ∧ t.acc = s.acc := by
  rw [execute_failed h he]
  exact ⟨rfl, rfl⟩

/-! ### R160: the two message states -/

/-- Settles O48, state by state: each clause is what the command answers under that state's conditions. -/
theorem messageLifecycle : Obligations.MessageLifecycle := by
  refine ⟨fun s hidle => ⟨fun hc p => ?_, execByte_of_idle hidle, execFinal_of_idle hidle, fun w r h1 h2 => ?_⟩,
    fun s hopen => ⟨fun hc p => ?_, fun b => ⟨_, execByte_of_open hopen b⟩, ⟨_, execFinal_of_open hopen⟩,
      fun w r h1 h2 => execConfigure_of_open h1 h2 r hopen⟩,
    fun s => ⟨fun n hn => ⟨_, execMirror_of_le hn s⟩, fun hc i => ⟨_, execTblrd_of_valid hc i⟩⟩,
    rfl, fun cmd s t h he => (execute_failed_message h he).1⟩
  · exact ⟨_, (exec_initInstr p s).trans (openOn_of_valid hc p), rfl, rfl⟩
  · exact ⟨_, execConfigure_of_idle h1 h2 r hidle, rfl, hidle⟩
  · exact (exec_initInstr p s).trans (openOn_of_valid hc p)

/-! ### R166: after FINAL -/

/-- Settles O54: a successful FINAL closes the message and keeps ACC, and INIT never reads ACC. -/
theorem noContinuationAfterFinal : Obligations.NoContinuationAfterFinal := by
  intro s t h hok
  obtain ⟨-, rfl⟩ := exec_succeeded h hok
  refine ⟨execByte_of_idle rfl, fun p a hc => ?_, rfl, fun rest hp => step_read (r := .acc) hp,
    fun v rest hp => step_write (r := .acc) hp⟩
  have hinit := openOn_of_valid hc p
  exact ⟨_, (exec_initInstr p _).trans ((openOn_setAcc hc p a).trans hinit), (exec_initInstr p _).trans hinit, rfl⟩

/-! ### R167: quiet events -/

/-- The commands a quiet event may run: those that are no message command (R165). -/
def quietCommand : Instr → Bool
  | .configure _ _ | .mirror _ | .tblrd _ => true
  | .initT | .initN | .byte _ | .final => false

/-- A command that a quiet event runs is no message command. -/
theorem quietCommand_of_runs {ev : HostEvent} {i : Instr} (hq : ev.quiet = true) (hr : ev.runs i) :
    quietCommand i = true := by
  obtain ⟨v, hv, hd⟩ := hr
  rw [cmdWord?_eq_some] at hv
  subst hv
  cases i with
  | configure | mirror | tblrd => rfl
  | initT | initN | byte | final => simp [HostEvent.quiet, hd] at hq

/-- A quiet event is a 32-bit host write to an assigned register. -/
theorem write_of_quiet {ev : HostEvent} (hq : ev.quiet = true) :
    ∃ (r : Reg) (v : Word), ev = .write r.offset .word v := by
  cases ev with
  | read | reset => cases hq
  | write off width v =>
    cases width with
    | byte | half => cases hq
    | word =>
      by_cases hcmd : off = Reg.cmd.offset
      · exact ⟨.cmd, v, by rw [hcmd]⟩
      · simp only [HostEvent.quiet, if_neg hcmd, Bool.or_eq_true, decide_eq_true_eq] at hq
        rcases hq with (rfl | rfl) | rfl
        · exact ⟨.arg0, v, rfl⟩
        · exact ⟨.arg1, v, rfl⟩
        · exact ⟨.arg2, v, rfl⟩

/-- A host write to an assigned register is never refused (R57). -/
theorem writeReg_answers (r : Reg) (v : Word) (s : State) : ∃ t, writeReg r v s = .next t := by
  cases r with
  | cmd => exact execute_answers v s
  | _ => exact ⟨_, rfl⟩

/-- A quiet event is never refused. -/
theorem step_quiet_answers {s : State} {ev : HostEvent} {rest : List HostEvent} (hq : ev.quiet = true)
    (hp : s.pending = ev :: rest) : ∃ t, step s = .next t := by
  obtain ⟨r, v, rfl⟩ := write_of_quiet hq
  rw [step_write hp]
  exact writeReg_answers r v _

/-- CONFIGURE finds an error in every state with a message open (R106). -/
theorem errorOf_configure_of_open {s : State} (hm : s.msgOpen = true) (w : Nat) (r : Bool) :
    errorOf (.configure w r) s ≠ none := by
  simp [hm]

/-- A quiet event inside an open message keeps the message: MSG_OPEN, ACC, PATH and the engine in force. The one command
of a quiet event that would write any of them is CONFIGURE, and an open message refuses it. -/
theorem step_quiet {s t : State} {ev : HostEvent} {rest : List HostEvent} (hm : s.msgOpen = true)
    (hq : ev.quiet = true) (hp : s.pending = ev :: rest) (h : step s = .next t) :
    t.msgOpen = true ∧ t.acc = s.acc ∧ t.path = s.path ∧ t.engine = s.engine ∧ t.cfgValid = s.cfgValid := by
  rcases step_outcome h with hs | ⟨⟨_, hreset⟩, -⟩ | ⟨i, _, ⟨_, _, hcmd, hruns⟩, hn, rfl⟩
  · exact ⟨hs.msgOpen.trans hm, hs.acc, hs.path, hs.engine, hs.cfgValid⟩
  · cases hp.symm.trans hreset
    cases hq
  · cases hp.symm.trans hcmd
    have hquiet := quietCommand_of_runs hq hruns
    cases i with
    | configure w r => exact absurd hn (errorOf_configure_of_open hm w r)
    | mirror n | tblrd i => exact ⟨hm, rfl, rfl, rfl, rfl⟩
    | initT | initN | byte | final => cases hquiet

/-- Settles O55: a quiet event is answered and keeps the message, and FINAL does not read the RESULT it writes. -/
theorem quietEventsLeaveTheMessageAlone : Obligations.QuietEventsLeaveTheMessageAlone := by
  refine ⟨?_, ?_, ?_, fun s w r hm => ⟨fun h1 h2 => execConfigure_of_open h1 h2 r hm, ?_⟩, ?_⟩
  · intro s ev rest hm hq hp
    obtain ⟨t, ht⟩ := step_quiet_answers hq hp
    obtain ⟨hopen, hacc, hpath, hengine, hvalid⟩ := step_quiet hm hq hp ht
    exact ⟨t, ht, hopen, hacc, hpath, hengine, hvalid, by rw [step_pending ht, hp, List.drop_one, List.tail_cons]⟩
  · rintro s t n i (h | h) <;> rcases exec_cases h with ⟨_, -, -, rfl⟩ | ⟨-, rfl⟩ <;> rfl
  · intro s v hm
    exact (execFinal_of_open (s := s.setResult v) hm).trans (execFinal_of_open hm).symm
  · intro t h hok
    exact errorOf_configure_of_open hm w r (exec_succeeded h hok).1
  · intro cmd s t hm h he
    obtain ⟨hopen, hacc⟩ := execute_failed_message h he
    exact ⟨hopen.trans hm, hacc⟩

end Sys2Proof.Machine
end

section
/-! The statements of 60_exceptions.md: which error a word raises and what it leaves alone (R181, R182, R184), and the
accesses one at a time in their order (R63, R193, R205). -/

namespace Sys2Proof.Machine

/-! ### R182: a failed command -/

/-- Settles O56: every word is answered, and one that fails writes ERR alone. -/
theorem failedCommandChangesOnlyErr : Obligations.FailedCommandChangesOnlyErr := by
  intro cmd s
  obtain ⟨t, ht⟩ := execute_answers cmd s
  exact ⟨t, ht, execute_failed ht⟩

/-! ### R181 and R184: the codes and their order -/

/-- What a command leaves in ERR: the error its check finds, or 0 (R181, R183). -/
theorem exec_err {i : Instr} {s t : State} (h : exec i s = .next t) : t.err = (errorOf i s).getD .ok := by
  rcases exec_cases h with ⟨e, -, he, rfl⟩ | ⟨hn, rfl⟩
  · simp [he]
  · simp [hn]

/-- The codes 7 to 15 are no code of an outcome (R181). -/
theorem Err.code_le (e : Err) : e.code.toNat ≤ 6 := by cases e <;> decide

/-- Settles O57: the decoder's verdict comes first, and a command leaves in ERR the error that `errorOf` finds. -/
theorem errorCodesAndPriority : Obligations.ErrorCodesAndPriority := by
  refine ⟨fun cmd s => ?_, ⟨rfl, rfl, rfl, rfl, rfl, rfl, rfl⟩, fun s => ⟨rfl, rfl⟩⟩
  obtain ⟨t, ht⟩ := execute_answers cmd s
  refine ⟨t, ht, ?_, t.err.code_le⟩
  rcases execute_cases ht with ⟨d, hd, rfl⟩ | ⟨i, hi, hx⟩
  · rw [hd]
    rfl
  · rw [hi, exec_err hx]
    cases i with
    | configure w r =>
      by_cases hw : w < 1 ∨ 32 < w
      · simp only [errorOf, if_pos hw, Option.getD_some]
      · simp only [errorOf, if_neg hw]
        cases hm : s.msgOpen <;> rfl
    | initT | initN | tblrd => cases hc : s.cfgValid <;> simp [errorOf, hc]
    | byte | final => cases hm : s.msgOpen <;> simp [errorOf, hm]
    | mirror n => by_cases hn : 32 < n <;> simp [errorOf, hn]

/-! ### R63: later accesses -/

/-- An outcome with further accesses posted to the state it answers. -/
def postOutcome (later : List HostEvent) :
    Host.Outcome State Fault Refusal → Host.Outcome State Fault Refusal
  | .next t => .next (t.post later)
  | .fault r => .fault r
  | .refused r => .refused r

theorem execute_post (cmd : Word) (s : State) (later : List HostEvent) :
    execute cmd (s.post later) = postOutcome later (execute cmd s) := by
  obtain ⟨t, ht⟩ := execute_answers cmd s
  obtain ⟨hpending, hdata⟩ := execute_bus ht
  have hpost : execute cmd (s.post later) = .next (t.setBus (s.pending ++ later) s.readData) := execute_setBus ht _ _
  rw [hpost, ht, ← hpending, ← hdata]
  rfl

theorem writeReg_post (r : Reg) (v : Word) (s : State) (later : List HostEvent) :
    writeReg r v (s.post later) = postOutcome later (writeReg r v s) := by
  cases r with
  | cmd => exact execute_post v s later
  | _ => rfl

theorem readReg_post (r : Reg) (s : State) (later : List HostEvent) : readReg r (s.post later) = readReg r s :=
  readReg_setBus r s _ _

/-- Accesses that come later change neither what an event does nor whether it is refused. -/
theorem perform_post (ev : HostEvent) (s : State) (later : List HostEvent) :
    perform ev (s.post later) = postOutcome later (perform ev s) := by
  cases ev with
  | reset => rfl
  | read off width =>
    simp only [perform, hostRead, readReg_post]
    cases isWordAccess off width with
    | false => rfl
    | true => cases regAt off <;> rfl
  | write off width v =>
    simp only [perform, hostWrite, writeReg_post]
    cases isWordAccess off width with
    | false => rfl
    | true => cases regAt off <;> rfl

/-- A step that has an access to perform does not depend on the accesses behind it. -/
theorem step_post {s : State} (hp : s.pending ≠ []) (later : List HostEvent) :
    step (s.post later) = postOutcome later (step s) := by
  obtain ⟨ev, rest, hp⟩ := List.exists_cons_of_ne_nil hp
  have hpost : (s.post later).pending = ev :: (rest ++ later) := by simp [hp]
  rw [step_event hp, step_event hpost, ← perform_post]
  rfl

/-- A run that performs only accesses already waiting does not depend on the accesses behind them. -/
theorem run_post {k : Nat} {s : State} (hk : k ≤ s.pending.length) (later : List HostEvent) :
    run k (s.post later) = postOutcome later (run k s) := by
  induction k generalizing s with
  | zero => rfl
  | succ k ih =>
    have hp : s.pending ≠ [] := List.ne_nil_of_length_pos (by omega)
    have hstep := step_post hp later
    cases hs : step s with
    | next u =>
      have hu : k ≤ u.pending.length := by
        rw [step_pending hs, List.length_drop]
        omega
      rw [hs] at hstep
      rw [run_succ_of_step hs, run_succ_of_step hstep, ih hu]
    | fault r => cases r
    | refused r =>
      rw [hs] at hstep
      rw [run_succ_of_refused hs, run_succ_of_refused hstep]
      rfl

/-- `k` steps take `k` events off the queue. -/
theorem run_pending {k : Nat} {s t : State} (h : run k s = .next t) : t.pending = s.pending.drop k := by
  induction k generalizing t with
  | zero => cases h; rfl
  | succ k ih =>
    obtain ⟨u, hu, ht⟩ := run_succ_last h
    rw [step_pending ht, ih hu, List.drop_drop]

/-- A read right after a CMD write returns what the register holds after the command (R205). -/
theorem run_cmd_read {s t : State} {v : Word} {r : Reg} {rest : List HostEvent}
    (hp : s.pending = .write Reg.cmd.offset .word v :: .read r.offset .word :: rest) (h : run 2 s = .next t) :
    ∃ u, execute v (s.setBus (.read r.offset .word :: rest) none) = .next u ∧ t.readData = some (readReg r u) := by
  obtain ⟨u, hu, hr⟩ := run_succ h
  rw [step_cmd hp] at hu
  rw [run_succ_of_step (step_read (execute_bus hu).1), run_zero] at hr
  cases hr
  exact ⟨u, hu, rfl⟩

/-- Settles O22: a step takes the first event off the queue and reads nothing of those behind it. -/
theorem accessesActInOrder : Obligations.AccessesActInOrder := by
  refine ⟨fun s => step_idle, fun s t k => run_pending, fun s later k hk => ⟨fun t ht => ?_, fun r hr => ?_⟩,
    fun s t v r rest => run_cmd_read⟩
  · rw [run_post hk, ht]
    rfl
  · rw [run_post hk, hr]
    rfl

end Sys2Proof.Machine
end

section
/-! The statement of 70_reset_and_hazards.md about reset (R202): it discards the message and the engine, and without an
engine no command that needs one succeeds. -/

namespace Sys2Proof.Machine

/-- A step that runs a command and ends with ERR = 0 found no error in that command. -/
theorem errorOf_of_step {i : Instr} {s t : State} (hi : s.runs i) (h : step s = .next t) (hok : t.err = .ok) :
    errorOf i s = none := by
  obtain ⟨ev, rest, hp, hr⟩ := hi
  exact (exec_succeeded ((step_runs hp hr).symm.trans h) hok).1

/-- INIT and TBLRD find no error only with an engine in force (R108, R161, R162). -/
theorem cfgValid_of_errorOf {i : Instr} (hi : i = .initT ∨ i = .initN ∨ ∃ n, i = .tblrd n) {s : State}
    (hn : errorOf i s = none) : s.cfgValid = true := by
  rcases hi with rfl | rfl | ⟨n, rfl⟩
  · exact (errorOf_initT_eq_none s).1 hn
  · exact (errorOf_initN_eq_none s).1 hn
  · exact (errorOf_tblrd_eq_none n s).1 hn

/-- A step that ends the engine in force is a reset. -/
theorem resets_of_cfgValid_cleared {s t : State} (h : step s = .next t) (hs : s.cfgValid = true)
    (ht : t.cfgValid = false) : s.resets := by
  rcases step_engine h with ⟨-, hkept⟩ | ⟨hr, -, -⟩ | ⟨_, _, -, -, -, hset⟩
  · exact absurd (ht.symm.trans (hkept.trans hs)) nofun
  · exact hr
  · exact absurd (ht.symm.trans hset) nofun

/-- Settles O23: a command that needs the engine succeeds only with CFG_VALID = 1, and a run from a state without an
engine gets there only by a CONFIGURE. -/
theorem resetDiscardsMessageAndEngine : Obligations.ResetDiscardsMessageAndEngine := by
  refine ⟨fun s rest hp => ⟨_, step_event hp, rfl⟩, ?_, fun s t => resets_of_cfgValid_cleared⟩
  intro s t t' k i hs hrun hneeds hi hstep hok
  have hvalid : t.cfgValid = true := cfgValid_of_errorOf hneeds (errorOf_of_step hi hstep hok)
  obtain ⟨j, w, r, u, v, hj, hu, hconf, hv, hvok, -⟩ := run_engine_origin hs hrun hvalid
  exact ⟨j, w, r, u, v, hj, hu, hconf, hv, hvok⟩

end Sys2Proof.Machine
end

section
/-! The statements of 10_state.md about the invariant (R43), STATUS (R24) and ERR (R29, R183). -/

namespace Sys2Proof.Machine

/-! ### R43: the invariant -/

/-- Settles O14: an outcome of a step is a reset, a change of nothing the invariant speaks of, or the effect of a
command that succeeds, and each keeps it. -/
theorem everyStepKeepsTheInvariant : Obligations.EveryStepKeepsTheInvariant := fun _ _ => step_inv

/-- Settles O13: without an engine the invariant asks for the configuration of reset. -/
theorem resetStateIsInvariant : Obligations.ResetStateIsInvariant := inv_reset [] none

/-! ### R24: STATUS -/

/-- The layout of STATUS, each field by its code (R24). -/
theorem statusWord_fields (s : State) :
    (statusWord s).extractLsb' 0 1 = BitVec.ofBool s.cfgValid ∧
    (statusWord s).extractLsb' 1 1 = BitVec.ofBool s.msgOpen ∧
    (statusWord s).extractLsb' 2 1 = s.path.code ∧
    (statusWord s).extractLsb' 3 1 = 0#1 ∧
    (statusWord s).extractLsb' 4 2 = s.engine.variant.code ∧
    (statusWord s).extractLsb' 6 2 = 0#2 ∧
    (statusWord s).extractLsb' 8 4 = s.err.code ∧
    (statusWord s).extractLsb' 12 20 = 0#20 := by
  refine ⟨?_, ?_, ?_, ?_, ?_, ?_, ?_, ?_⟩ <;>
    simp (disch := omega) only [statusWord, BitVec.extractLsb'_or, extractLsb'_placeField_same,
      extractLsb'_placeField_disjoint, BitVec.or_zero, BitVec.zero_or, BitVec.setWidth_eq]

/-- Settles O3: each field has its place in the word, and STATUS is a register whose host writes are ignored. -/
theorem statusWordLayout : Obligations.StatusWordLayout := by
  refine ⟨fun s => ?_, rfl, fun s v rest hp => step_write (r := .status) hp⟩
  obtain ⟨hvalid, hopen, hpath, h3, hvariant, h6, herr, h12⟩ := statusWord_fields s
  refine ⟨?_, ?_, ?_, h3, ?_, h6, ?_, h12⟩
  · rw [hvalid]
    cases s.cfgValid <;> rfl
  · rw [hopen]
    cases s.msgOpen <;> rfl
  · rw [hpath]
    cases s.path <;> rfl
  · rw [hvariant]
    cases s.engine.variant <;> rfl
  · rw [herr]
    cases s.err <;> rfl

/-! ### R29, R183: ERR -/

/-- No command reads ERR: neither its error check nor its effect, and it writes ERR over. -/
theorem exec_setErr (i : Instr) (s : State) (e : Err) : exec i (s.setErr e) = exec i s := by
  have herror : errorOf i (s.setErr e) = errorOf i s := by cases i <;> rfl
  have heffect : (effectOf i (s.setErr e)).setErr .ok = (effectOf i s).setErr .ok := by cases i <;> rfl
  rw [exec_eq, exec_eq, herror, heffect]
  rfl

theorem execute_setErr (cmd : Word) (s : State) (e : Err) : execute cmd (s.setErr e) = execute cmd s := by
  cases hd : decode cmd with
  | illegal d =>
    rw [execute_of_illegal hd, execute_of_illegal hd]
    rfl
  | command i => rw [execute_of_decode hd, execute_of_decode hd, exec_setErr]

/-- Settles O8: a command that fails changes ERR alone, and of all that a step can do only a reset or a word written to
CMD touches ERR. -/
theorem errHoldsTheLastOutcome : Obligations.ErrHoldsTheLastOutcome := by
  refine ⟨rfl, rfl, fun cmd s t h => ?_, fun s t h hne => ?_, execute_setErr⟩
  · by_cases hok : t.err = .ok
    · exact .inl hok
    · exact .inr (execute_failed h hok)
  · rcases step_effect h with ⟨-, -, -, -, -, hkept, -⟩ | ⟨rest, hp, -⟩ | ⟨v, rest, hp, -⟩
    · exact absurd hkept hne
    · exact .inl ⟨rest, hp⟩
    · exact .inr ⟨v, rest, hp⟩

end Sys2Proof.Machine
end

section
/-! The statements of 20_memory.md about the register map (R51), the accesses that are refused or always answered (R52,
R53, R62), what a host write does (R54, R57), and the platform's window on the registers (R66). -/

namespace Sys2Proof.Machine

/-! ### Which accesses are refused (R52, R53) -/

/-- The assigned offsets are the multiples of 4 from 0x00 to 0x38 (R51, R53). -/
theorem regAt_isSome : ∀ off : BitVec 8,
    (regAt off).isSome = (decide (off.toNat % 4 = 0) && decide (off.toNat ≤ 0x38)) := by
  decide +kernel

/-- An assigned offset is that of its register. -/
theorem exists_reg {off : BitVec 8} (h : (regAt off).isSome = true) : ∃ r : Reg, off = r.offset := by
  obtain ⟨r, hr⟩ := Option.isSome_iff_exists.1 h
  exact ⟨r, (offset_of_regAt hr).symm⟩

section
variable {s : State} {off : BitVec 8} {width : AccessWidth} {v : Word} {ev : HostEvent} {rest : List HostEvent}

theorem step_refused_nonWord (hev : ev = .read off width ∨ ev = .write off width v) (hp : s.pending = ev :: rest)
    (hword : isWordAccess off width = false) : step s = .refused .nonWordAccess := by
  rw [step_event hp]
  rcases hev with rfl | rfl
  · simp [perform, hostRead, hword]
  · simp [perform, hostWrite, hword]

theorem step_refused_reserved (hev : ev = .read off width ∨ ev = .write off width v) (hp : s.pending = ev :: rest)
    (hword : isWordAccess off width = true) (hreg : regAt off = none) : step s = .refused .reservedOffset := by
  rw [step_event hp]
  rcases hev with rfl | rfl
  · simp [perform, hostRead, hword, hreg]
  · simp [perform, hostWrite, hword, hreg]

end

/-- An access is refused for what it is, whatever the state. -/
theorem step_unsupported {ev : HostEvent} (h : ev.supported = false) :
    ∃ x, ∀ (s : State) (rest : List HostEvent), s.pending = ev :: rest → step s = .refused x := by
  have access {off : BitVec 8} {width : AccessWidth} {v : Word}
      (hev : ev = .read off width ∨ ev = .write off width v)
      (hoff : (isWordAccess off width && (regAt off).isSome) = false) :
      ∃ x, ∀ (s : State) (rest : List HostEvent), s.pending = ev :: rest → step s = .refused x := by
    cases hword : isWordAccess off width with
    | false => exact ⟨_, fun s rest hp => step_refused_nonWord hev hp hword⟩
    | true =>
      have hreg : regAt off = none := by simpa [hword] using hoff
      exact ⟨_, fun s rest hp => step_refused_reserved hev hp hword hreg⟩
  cases ev with
  | reset => cases h
  | read off width => exact access (v := 0#32) (.inl rfl) h
  | write off width v => exact access (.inr rfl) h

/-- Settles O17: the alignment check comes first, and the offsets from 0x3C on have no register. -/
theorem unsupportedAccessesAreRefused : Obligations.UnsupportedAccessesAreRefused := by
  intro s off width v ev rest hev hp
  refine ⟨fun h => step_refused_nonWord hev hp ?_, fun hwidth halign hoff => step_refused_reserved hev hp ?_ ?_⟩
  · rcases h with h | h <;> simp [isWordAccess, h]
  · simp [isWordAccess, hwidth, halign]
  · have hnone := regAt_isSome off
    rwa [decide_eq_false (by omega : ¬ off.toNat ≤ 0x38), Bool.and_false, Option.isSome_eq_false_iff,
      Option.isNone_iff_eq_none] at hnone

/-! ### Which accesses are answered (R62) -/

/-- A supported event is a reset, or a 32-bit access to a register at its offset. -/
theorem cases_of_supported {ev : HostEvent} (h : ev.supported = true) :
    ev = .reset ∨ ∃ r : Reg, ev = .read r.offset .word ∨ ∃ v, ev = .write r.offset .word v := by
  have register {off : BitVec 8} {width : AccessWidth} (hoff : (isWordAccess off width && (regAt off).isSome) = true) :
      width = .word ∧ ∃ r : Reg, off = r.offset := by
    obtain ⟨hword, hreg⟩ := Bool.and_eq_true_iff.1 hoff
    exact ⟨of_decide_eq_true (Bool.and_eq_true_iff.1 hword).1, exists_reg hreg⟩
  cases ev with
  | reset => exact .inl rfl
  | read off width =>
    obtain ⟨rfl, r, rfl⟩ := register h
    exact .inr ⟨r, .inl rfl⟩
  | write off width v =>
    obtain ⟨rfl, r, rfl⟩ := register h
    exact .inr ⟨r, .inr ⟨v, rfl⟩⟩

/-- A step takes the event it performs off the queue. -/
theorem step_rest {s t : State} {ev : HostEvent} {rest : List HostEvent} (hp : s.pending = ev :: rest)
    (h : step s = .next t) : t.pending = rest := by
  rw [step_pending h, hp, List.drop_one, List.tail_cons]

/-- A supported event is answered in every state. -/
theorem step_supported {s : State} {ev : HostEvent} {rest : List HostEvent} (h : ev.supported = true)
    (hp : s.pending = ev :: rest) : ∃ t, step s = .next t := by
  rcases cases_of_supported h with rfl | ⟨r, rfl | ⟨v, rfl⟩⟩
  · exact ⟨_, step_event hp⟩
  · exact ⟨_, step_read hp⟩
  · rw [step_write hp]
    exact writeReg_answers r v _

/-- Settles O21: the offsets it names are the assigned ones, so its events are the supported ones. -/
theorem supportedAccessesCompleteInOneStep : Obligations.SupportedAccessesCompleteInOneStep := by
  intro s ev rest hp hev
  have hsupported : ev.supported = true := by
    rcases hev with rfl | ⟨off, halign, hle, rfl | ⟨v, rfl⟩⟩
    · rfl
    all_goals simp [HostEvent.supported, isWordAccess, regAt_isSome, halign, hle]
  obtain ⟨t, ht⟩ := step_supported hsupported hp
  refine ⟨t, ht, step_rest hp ht, ?_⟩
  rintro rfl
  cases (step_event hp).symm.trans ht
  rfl

/-! ### R51: what a read returns -/

/-- Settles O16: each of the fifteen offsets is that of its register. -/
theorem hostReadsReturnTheRegisterMap : Obligations.HostReadsReturnTheRegisterMap := by
  intro s rest
  simp only [List.forall_mem_cons]
  exact ⟨step_read (r := .cmd), step_read (r := .status), step_read (r := .arg0), step_read (r := .arg1),
    step_read (r := .arg2), step_read (r := .result), step_read (r := .acc), step_read (r := .cfg),
    step_read (r := .poly), step_read (r := .xorIn), step_read (r := .xorOut), step_read (r := .mask),
    step_read (r := .msbMask), step_read (r := .reflectedXorIn), step_read (r := .shiftedXorIn), nofun⟩

/-! ### R54, R57: what a write does -/

/-- A host write to ARG0, ARG1 or ARG2 done twice stores no more than done once. -/
theorem step_write_again {s t : State} {r : Reg} (hr : r = .arg0 ∨ r = .arg1 ∨ r = .arg2) {v : Word}
    {rest : List HostEvent} (hp : s.pending = .write r.offset .word v :: .write r.offset .word v :: rest)
    (h : step s = .next t) : step t = .next (t.setBus rest none) := by
  have hagain : t.pending = .write r.offset .word v :: rest := step_rest hp h
  rw [step_write hp] at h
  rw [step_write hagain]
  rcases hr with rfl | rfl | rfl <;> cases h <;> rfl

/-- An open message of an 8-bit engine on the reference path, with two writes of the word of BYTE 1 to come. -/
def twoBytesToCome : State :=
  ((State.reset.install (Engine.build 8 false 0x07#32 0#32 0#32)).openMessage .reference 0#32).setBus
    [.write 0x00#8 .word 0x103#32, .write 0x00#8 .word 0x103#32] none

theorem twoBytesToCome_inv : Inv twoBytesToCome :=
  ⟨fun _ => build_valid (by decide) (by decide) false (by decide) (by decide) (by decide), nofun,
    fun _ => ⟨rfl, Nat.two_pow_pos _⟩⟩

/-- Settles O18: the writes of each register, and for the BYTE word ACC from 0 to 0x07 and on to 0x12. -/
theorem hostWritesByKindOfOffset : Obligations.HostWritesByKindOfOffset := by
  refine ⟨fun s v rest => ⟨step_write (r := .arg0), step_write (r := .arg1), step_write (r := .arg2)⟩, ?_, ?_, ?_⟩
  · intro s t off v rest hoff hp
    simp only [List.mem_cons, List.not_mem_nil, or_false] at hoff
    rcases hoff with rfl | rfl | rfl
    · exact step_write_again (.inl rfl) hp
    · exact step_write_again (.inr (.inl rfl)) hp
    · exact step_write_again (.inr (.inr rfl)) hp
  · intro s off v rest hoff hp
    simp only [List.mem_cons, List.not_mem_nil, or_false] at hoff
    rcases hoff with rfl | rfl | rfl | rfl | rfl | rfl | rfl | rfl | rfl | rfl | rfl
    · exact step_write (r := .status) hp
    · exact step_write (r := .result) hp
    · exact step_write (r := .acc) hp
    · exact step_write (r := .cfg) hp
    · exact step_write (r := .poly) hp
    · exact step_write (r := .xorIn) hp
    · exact step_write (r := .xorOut) hp
    · exact step_write (r := .mask) hp
    · exact step_write (r := .msbMask) hp
    · exact step_write (r := .reflectedXorIn) hp
    · exact step_write (r := .shiftedXorIn) hp
  · exact ⟨twoBytesToCome, _, _, 0x103#32, 1#8, [], twoBytesToCome_inv, rfl, rfl, rfl, rfl, rfl, rfl,
      by decide +kernel⟩

/-! ### R66: the platform's window -/

/-- An address that reaches the core is the base and the offset it reaches. -/
theorem platformOffset_eq_some {a : Nat} {off : BitVec 8} :
    platformOffset a = some off ↔ a = Config.polycrcBase + off.toNat := by
  have hlt := off.isLt
  unfold platformOffset
  split
  · rw [Option.some_inj, ← BitVec.toNat_inj, BitVec.toNat_ofNat, Nat.mod_eq_of_lt (by omega)]
    omega
  · simp only [reduceCtorEq, false_iff]
    omega

/-- Settles O24: the offset determines the address, and the address the offset. -/
theorem platformWindowIsOneToOne : Obligations.PlatformWindowIsOneToOne :=
  ⟨fun _ => platformOffset_eq_some.2 rfl, fun _ _ _ ha hb =>
    (platformOffset_eq_some.1 ha).trans (platformOffset_eq_some.1 hb).symm⟩

end Sys2Proof.Machine
end

section
/-! The statements of 30_encoding.md about the encoder (R71, R74, R77, R79), the dispatch of a command word (R80) and
the assembler's `cfgp` (R79, R203). -/

namespace Sys2Proof

/-! ### The encoder against the decoder (R74, R77) -/

/-- A command comes back from its word exactly when its operand fits field A: opcode by opcode, the decoder answers the
operand of the packed word, which for a number is its remainder modulo 256. -/
theorem decode_encode_iff {i : Instr} : decode (encode i) = .command i ↔ i.wf = true := by
  cases i <;> simp [encode, Instr.wf]

/-- A decoded command has a word. -/
theorem wf_of_decode {cmd : Word} {i : Instr} (h : decode cmd = .command i) : i.wf = true :=
  decode_encode_iff.1 (encode_of_decode h ▸ h)

/-! ### A packed word as a sum (R79) -/

/-- The fields of a word side by side, each below the place of the next. -/
theorem toNat_packWord (f : Bool) (a op : Byte) :
    (packWord f a op).toNat = op.toNat + a.toNat * 2 ^ 8 + (if f then 1 else 0) * 2 ^ 16 := by
  have hop := op.isLt
  have ha := a.isLt
  have hflag : (placeField 16 (BitVec.ofBool f)).toNat = (if f then 1 else 0) <<< 16 := by cases f <;> rfl
  have hoperand : (placeField 8 a).toNat = a.toNat <<< 8 := by
    simp only [placeField, BitVec.toNat_shiftLeft, BitVec.toNat_setWidth, Nat.shiftLeft_eq]
    omega
  have hopcode : (placeField 0 op).toNat = op.toNat := by
    simp only [placeField, BitVec.shiftLeft_zero, BitVec.toNat_setWidth]
    omega
  rw [packWord, BitVec.toNat_or, BitVec.toNat_or, hflag, hoperand, hopcode, Nat.or_comm op.toNat,
    ← Nat.shiftLeft_add_eq_or_of_lt hop, Nat.or_comm, ← Nat.shiftLeft_add_eq_or_of_lt (by rw [Nat.shiftLeft_eq]; omega)]
  simp only [Nat.shiftLeft_eq]
  omega

end Sys2Proof

namespace Sys2Proof.Machine

/-- Settles O25: the encoder places each operand in its field and the decoder reads it back. -/
theorem encodeThenDecodeIsIdentity : Obligations.EncodeThenDecodeIsIdentity := fun _ => decode_encode_iff.2

/-- Settles O26: the word of what a word decodes to is that word, so it decodes back, and its operand fits field A. -/
theorem decodedWordEncodesBack : Obligations.DecodedWordEncodesBack :=
  fun _ _ h => ⟨wf_of_decode h, encode_of_decode h⟩

/-- Settles O29, word by word and row by row. -/
theorem specWordsDecode : Obligations.SpecWordsDecode := by
  refine ⟨?_, ?_, ?_, ?_, ?_, ?_, ?_, ?_, ?_, ?_, ?_, ?_, ?_⟩ <;> decide

/-- Settles O30: a command's word is the sum of its fields. -/
theorem assemblerWordsAreSums : Obligations.AssemblerWordsAreSums := by
  refine ⟨fun w r hw => ?_, rfl, rfl, fun b => ?_, rfl, fun n hn => ?_, fun i hi => ?_⟩
  · simp [encode, toNat_packWord, Nat.mod_eq_of_lt hw]
  · simp [encode, toNat_packWord]
  · simp [encode, toNat_packWord, Nat.mod_eq_of_lt hn]
  · simp [encode, toNat_packWord, Nat.mod_eq_of_lt hi]

/-! ### R80: dispatch -/

/-- The command of a table word of 32 bits is what those bits decode to. -/
theorem decode_of_decodeTableWord {w : Nat} {i : Instr} (h : decodeTableWord 32 w = some i) :
    decode (BitVec.ofNat 32 (w % 2 ^ 32)) = .command i := by
  unfold decodeTableWord at h
  rw [if_pos (Nat.mod_lt w (Nat.two_pow_pos 32))] at h
  split at h
  · next hd =>
    cases h
    exact hd
  · cases h

/-- Settles O31: a write to CMD executes its word, and `withFetchWord` puts such a write first. -/
theorem stepRunsTheDecodedCommand : Obligations.StepRunsTheDecodedCommand := by
  refine ⟨fun s v i rest hp hd => ⟨wf_of_decode hd, (step_cmd hp).trans (execute_of_decode hd _)⟩, fun s w i h => ?_⟩
  have hfetch : (s.withFetchWord 32 w).pending =
      .write Reg.cmd.offset .word (BitVec.ofNat 32 (w % 2 ^ 32)) :: s.pending := rfl
  rw [step_cmd hfetch, execute_of_decode (decode_of_decodeTableWord h)]
  rfl

/-! ### R79, R203: `cfgp` -/

/-- The access of a well-formed command runs that command. -/
theorem cmdEvent_runs {i : Instr} (h : i.wf = true) : (cmdEvent i).runs i :=
  ⟨encode i, cmdWord?_eq_some.2 rfl, decode_encode_iff.2 h⟩

/-- What `cfgp` assembles to, for operands in their bounds: three operand writes and CONFIGURE. -/
theorem assemble_cfgp {w p xi xo r : Nat} (hw : w < 256) (hp : p < 2 ^ 32) (hxi : xi < 2 ^ 32) (hxo : xo < 2 ^ 32)
    (hr : r ≤ 1) :
    assemble (.cfgp w p xi xo r) = some [wrEvent .arg0 (BitVec.ofNat 32 p), wrEvent .arg1 (BitVec.ofNat 32 xi),
      wrEvent .arg2 (BitVec.ofNat 32 xo), cmdEvent (.configure w (r == 1))] := by
  have hwf : (Instr.configure w (r == 1)).wf = true := decide_eq_true hw
  simp only [assemble, assembleValue, if_pos hp, if_pos hxi, if_pos hxo, assembleFlag, if_pos hr, Option.bind_some,
    cfgEvents, assembleInstr, if_pos hwf, Option.map_some]

/-- `s` after the three operand writes of `cfgp`, with other accesses to come. -/
def State.withOperands (s : State) (p xi xo : Word) (rest : List HostEvent) : State :=
  (((s.setArg0 p).setArg1 xi).setArg2 xo).setBus rest none

/-- Three operand writes and a well-formed CONFIGURE run to the CONFIGURE of the operands written. -/
theorem run_cfgp {s : State} {w : Nat} {p xi xo : Word} {r : Bool} {rest : List HostEvent} (hw : w < 256)
    (hp : s.pending = wrEvent .arg0 p :: wrEvent .arg1 xi :: wrEvent .arg2 xo :: cmdEvent (.configure w r) :: rest)
    {t : State} (h : exec (.configure w r) (s.withOperands p xi xo rest) = .next t) : run 4 s = .next t := by
  have hruns : (cmdEvent (.configure w r)).runs (.configure w r) := cmdEvent_runs (decide_eq_true hw)
  have hlast : step (s.withOperands p xi xo (cmdEvent (.configure w r) :: rest)) = .next t :=
    Eq.trans (step_runs rfl hruns) h
  rw [run_succ_of_step (step_write (r := .arg0) hp), run_succ_of_step (step_write (r := .arg1) rfl),
    run_succ_of_step (step_write (r := .arg2) rfl)]
  exact run_succ_of_step hlast 0

/-- Settles O32: the four accesses run to a CONFIGURE of the operands they wrote, which succeeds for a legal width with
no message open. -/
theorem cfgpConfiguresTheCore : Obligations.CfgpConfiguresTheCore := by
  intro w p xi xo r hw1 hw2 hp hxi hxo hr
  refine ⟨_, assemble_cfgp (by omega) hp hxi hxo hr, rfl, fun s rest hpend hm => ?_⟩
  have hconf := execConfigure_of_idle hw1 hw2 (r == 1)
    (s := s.withOperands (BitVec.ofNat 32 p) (BitVec.ofNat 32 xi) (BitVec.ofNat 32 xo) rest) hm
  have hargs {v : Nat} (hv : v < 2 ^ 32) : (BitVec.ofNat 32 v).toNat = v := Nat.mod_eq_of_lt hv
  obtain ⟨hpoly, hxorIn, hxorOut⟩ := configuredEngine_params hw2 (r == 1)
    (s.withOperands (BitVec.ofNat 32 p) (BitVec.ofNat 32 xi) (BitVec.ofNat 32 xo) rest)
  refine ⟨_, run_cfgp (by omega) hpend hconf, rfl, rfl, rfl, configuredEngine_valid hw1 hw2 _ _,
    build_w hw2 _ _ _ _, beq_iff_eq, ?_, ?_, ?_, hargs hp, hargs hxi, hargs hxo⟩
  · exact hpoly.trans (congrArg (· % 2 ^ w) (hargs hp))
  · exact hxorIn.trans (congrArg (· % 2 ^ w) (hargs hxi))
  · exact hxorOut.trans (congrArg (· % 2 ^ w) (hargs hxo))

end Sys2Proof.Machine
end

section
/-! The statements of 40_bitmirror.md and 41_parameters_and_table.md about MIRROR (R93), the engine CONFIGURE builds
(R33, R105, R106), and the entries of TABLE and their reader (R104, R108). -/

namespace Sys2Proof.Machine

/-! ### R93: MIRROR -/

/-- Settles O35: the bits of the mirror, and the one bound MIRROR checks. -/
theorem mirrorCommandWritesResult : Obligations.MirrorCommandWritesResult := by
  refine fun n s => ⟨fun hn => ⟨_, execMirror_of_le hn s, fun k hk => ?_, fun k hk => ?_⟩,
    fun hn => execMirror_of_gt hn s⟩
  · obtain ⟨-, hbits, -⟩ := mirrorReversesTheLowBits s.arg0 n hn
    exact hbits k hk
  · exact getLsbD_of_toNat_lt (toNat_mirror_lt s.arg0 hn) hk

/-! ### R33, R105, R106: CONFIGURE -/

/-- Settles O38: what CONFIGURE installs is the engine built of the masked operands, which is valid. -/
theorem configureBuildsTheEngine : Obligations.ConfigureBuildsTheEngine := by
  intro w r s hw1 hw2 hm
  have hw : (configuredEngine w r s).w = w := build_w hw2 _ _ _ _
  have hcs : (configuredEngine w r s).cs = max 0 (8 - w) := (build_cs hw1 _ _ _ _).trans (Nat.zero_max _).symm
  have hshifted := (configuredEngine_valid hw1 hw2 r s).shiftedXorIn_eq
  obtain ⟨hpoly, hxorIn, hxorOut⟩ := configuredEngine_params hw2 r s
  refine ⟨configuredEngine w r s, execConfigure_of_idle hw1 hw2 r hm, hw, rfl, hpoly, hxorIn, hxorOut,
    toNat_maskOf hw2, toNat_msbMaskOf hw1 hw2, hcs, rfl, hshifted, variantOf_eq_reflected.2,
    fun hr h8 hi ho => variantOf_eq_fast.2 ⟨hr, h8, hi, ho⟩, ?_, fun i hi => tableRead_tableOf _ hi⟩
  rintro rfl hnot
  exact (variantOf_false ..).trans (if_neg hnot)

/-! ### R104: entries of TABLE -/

theorem tableEntry_lt {w : Nat} (h2 : w ≤ 32) (p : Word) (r : Bool) (i : Nat) : (tableEntry w p r i).toNat < 2 ^ w :=
  toNat_and_maskOf_lt h2 _

theorem mirror_zero {n : Nat} (hn : n ≤ 32) : mirror 0#32 n = 0#32 := by
  refine BitVec.eq_of_getLsbD_eq fun j _ => ?_
  rw [getLsbD_mirror _ hn, BitVec.getLsbD_zero, BitVec.getLsbD_zero, Bool.and_false]

/-- A word with room above it, shifted up and back. -/
theorem shiftLeft_ushiftRight_of_fits {v : Word} {w c : Nat} (hv : v.toNat < 2 ^ w) (h : w + c ≤ 32) :
    (v <<< c) >>> c = v := by
  rw [← BitVec.toNat_inj, BitVec.toNat_ushiftRight, toNat_shiftLeft_of_fits hv h, Nat.shiftRight_eq_div_pow,
    Nat.mul_div_cancel _ (Nat.two_pow_pos c)]

/-- Bits above the width, XORed to a word that fits it, go with the mask. -/
theorem xor_and_maskOf {u v : Word} {n : Nat} (hn : n ≤ 32) (hu : u &&& maskOf n = 0#32) (hv : v.toNat < 2 ^ n) :
    (u ^^^ v) &&& maskOf n = v := by
  rw [← BitVec.toNat_inj, toNat_and_maskOf hn, BitVec.toNat_xor, Nat.xor_mod_two_pow, ← toNat_and_maskOf hn, hu,
    Nat.mod_eq_of_lt hv, BitVec.toNat_zero, Nat.zero_xor]

section
variable {w : Nat} (h1 : 1 ≤ w) (h2 : w ≤ 32)
include h1 h2

/-- An entry with reflection is the mirror of what the rounds leave: it fits the width, so neither the shifts nor the
mask behind it change it (R103 steps 4 and 5). -/
theorem tableEntry_true (p : Word) (i : Nat) :
    tableEntry w p true i = mirror (tableRounds w p 8 (tableSeed w true i) >>> crcShiftOf w) w := by
  have hcs : w + crcShiftOf w ≤ 32 := by unfold crcShiftOf; omega
  simp only [tableEntry, if_true]
  rw [shiftLeft_ushiftRight_of_fits (toNat_mirror_lt _ h2) hcs, and_maskOf_of_lt h2 (toNat_mirror_lt _ h2)]

/-- Rounds on a clear register leave it clear. -/
theorem tableRounds_zero (p : Word) (n : Nat) : tableRounds w p n 0#32 = 0#32 := by
  rw [tableRounds_low h1 h2 p n 0#32 fun i _ _ => BitVec.getLsbD_zero, BitVec.zero_shiftLeft]

/-- The lowest bit of an aligned index meets the tested bit in the last of the eight rounds, which XORs the poly in. -/
theorem tableRounds_one (p : Word) :
    tableRounds w p 8 (1#32 <<< (w + crcShiftOf w - 8)) = (1#32 <<< (w + crcShiftOf w)) ^^^ (p <<< crcShiftOf w) := by
  have hcs : 8 ≤ w + crcShiftOf w ∧ w + crcShiftOf w ≤ 32 := by unfold crcShiftOf; omega
  have hseven : tableRounds w p 7 (1#32 <<< (w + crcShiftOf w - 8)) = 1#32 <<< (w + crcShiftOf w - 1) := by
    rw [tableRounds_low h1 h2, ← BitVec.shiftLeft_add]
    · congr 1
      omega
    · intro i hi _
      simp [show ¬ i < w + crcShiftOf w - 8 by omega, show ¬ i - (w + crcShiftOf w - 8) = 0 by omega]
  rw [tableRounds_succ_last, hseven, tableRound_eq h1 h2, ← BitVec.shiftLeft_add,
    if_pos (by simp [show w + crcShiftOf w - 1 < 32 by omega])]
  congr 2
  omega

/-- What the eight rounds of the lowest bit leave above CRC_SHIFT: the poly, below one bit outside the width. -/
theorem tableRounds_one_low {p : Word} (hp : p.toNat < 2 ^ w) :
    (tableRounds w p 8 (1#32 <<< (w + crcShiftOf w - 8)) >>> crcShiftOf w) &&& maskOf w = p := by
  have hcs : w + crcShiftOf w ≤ 32 := by unfold crcShiftOf; omega
  rw [tableRounds_one h1 h2, BitVec.ushiftRight_xor_distrib, shiftLeft_ushiftRight_of_fits hp hcs]
  refine xor_and_maskOf h2 (BitVec.eq_of_getLsbD_eq fun j _ => ?_) hp
  rw [BitVec.getLsbD_and, getLsbD_maskOf h2]
  by_cases hj : j < w
  · simp [show crcShiftOf w + j < w + crcShiftOf w by omega]
  · simp [hj]

theorem tableEntry_zero (p : Word) (r : Bool) : tableEntry w p r 0 = 0#32 := by
  have hseed : tableSeed w r 0 = 0#32 := by cases r <;> simp [tableSeed, mirror_zero]
  cases r with
  | false => simp [tableEntry, hseed, tableRounds_zero h1 h2]
  | true => rw [tableEntry_true h1 h2, hseed, tableRounds_zero h1 h2, BitVec.zero_ushiftRight, mirror_zero h2]

/-- Index 1 is the lowest bit. -/
theorem tableEntry_false_one {p : Word} (hp : p.toNat < 2 ^ w) : tableEntry w p false 1 = p :=
  tableRounds_one_low h1 h2 hp

/-- Index 128 is the lowest bit mirrored, and the mirror of what the rounds leave looks at its low bits alone. -/
theorem tableEntry_true_msb {p : Word} (hp : p.toNat < 2 ^ w) : tableEntry w p true 128 = mirror p w := by
  have hseed : tableSeed w true 128 = 1#32 <<< (w + crcShiftOf w - 8) :=
    congrArg (fun x : Word => x <<< (w + crcShiftOf w - 8)) (by decide : mirror 128#32 8 = 1#32)
  rw [tableEntry_true h1 h2, hseed, ← mirror_and_maskOf _ h2, tableRounds_one_low h1 h2 hp]

/-- The bit a round tests is the top one of the register (R103 step 3). -/
theorem toNat_testedBit : (msbMaskOf w <<< crcShiftOf w).toNat = 2 ^ (max 8 w - 1) := by
  have hbit := toNat_msbMaskOf h1 h2
  have hlt : (msbMaskOf w).toNat < 2 ^ w := by
    rw [hbit]
    exact Nat.pow_lt_pow_right (by decide) (by omega)
  rw [toNat_shiftLeft_of_fits hlt (by unfold crcShiftOf; omega), hbit, ← Nat.pow_add]
  congr 1
  unfold crcShiftOf
  omega

end

/-- Settles O39, property by property. -/
theorem tableEntryLandmarks : Obligations.TableEntryLandmarks :=
  fun _ p h1 h2 hp => ⟨fun r i _ => tableEntry_lt h2 p r i, tableEntry_zero h1 h2 p, tableEntry_false_one h1 h2 hp,
    tableEntry_true_msb h1 h2 hp, toNat_testedBit h1 h2⟩

/-! ### R108: TBLRD -/

/-- Settles O40: TBLRD reads the entry, and an engine in force holds the entries of R103. -/
theorem tblrdReadsOneEntry : Obligations.TblrdReadsOneEntry := by
  refine fun i s hi => ⟨fun hc => ⟨_, execTblrd_of_valid hc i, by simp [tableRead, hi], fun hinv => ?_⟩,
    fun hc => execTblrd_of_invalid hc i⟩
  have hv := hinv.configured hc
  rw [hv.table_eq i hi]
  refine ⟨tableEntry_lt hv.width_le _ _ _, ?_⟩
  rintro rfl
  exact tableEntry_zero hv.width_pos hv.width_le _ _

end Sys2Proof.Machine
end

section
/-! The statements of 42_calculate_table.md and 43_calculate_no_table.md about the corner cases of the two paths' steps
(R132, R133, R151), the bounds of the checksums (R136, R152), and the form of the table path's register (R38). -/

namespace Sys2Proof.Machine

/-! ### R132, R133: the table steps -/

/-- A word below 256 is its own low byte. -/
theorem and_ff_of_lt {x : Word} (h : x.toNat < 2 ^ 8) : x &&& 0xFF#32 = x := and_maskOf_of_lt (n := 8) (by omega) h

theorem toNat_setWidth_byte_lt (b : Byte) : (b.setWidth 32 : Word).toNat < 2 ^ 8 :=
  by
  rw [BitVec.toNat_setWidth_of_le (by omega)]
  exact b.isLt

section
variable {e : Engine} (h : e.Valid)
include h

theorem Engine.Valid.tableRead_lt {i : Nat} (hi : i < 256) : (tableRead e.table i).toNat < 2 ^ e.w := by
  rw [h.table_eq i hi]
  exact tableEntry_lt h.width_le _ _ _

/-- For a width up to 8 the register has no bits above the byte that is read, so the reflected step is the read. -/
theorem stepReflected_of_narrow (hw : e.w ≤ 8) {acc : Word} (ha : acc.toNat < 2 ^ e.w) (b : Byte) :
    stepReflected e acc b = tableRead e.table ((acc ^^^ b.setWidth 32) &&& 0xFF#32).toNat := by
  have hbyte : acc.toNat < 2 ^ 8 := Nat.lt_of_lt_of_le ha (Nat.pow_le_pow_right (by decide) hw)
  have hshift : acc >>> 8 = 0#32 := by
    rw [← BitVec.toNat_inj, BitVec.toNat_ushiftRight, Nat.shiftRight_eq_div_pow, Nat.div_eq_of_lt hbyte,
      BitVec.toNat_zero]
  have hread := h.tableRead_lt (toNat_and_ff_lt (acc ^^^ b.setWidth 32))
  simp only [stepReflected, hshift, BitVec.xor_zero, h.mask_eq_maskOf]
  exact and_maskOf_of_lt h.width_le hread

/-- The non-reflected step in two parts under the mask: what is read, which fits the width, and what the shift by a byte
leaves of the register, brought down by CRC_SHIFT. -/
theorem stepNonreflected_of_shifted_out {acc : Word} (b : Byte)
    (hout : ((acc <<< (8 - e.cs)) >>> e.cs) &&& maskOf e.w = 0#32) :
    stepNonreflected e acc b =
      tableRead e.table (((acc >>> e.align) ^^^ b.setWidth 32) &&& 0xFF#32).toNat <<< e.cs := by
  have hread := h.tableRead_lt (toNat_and_ff_lt ((acc >>> e.align) ^^^ b.setWidth 32))
  simp only [stepNonreflected, h.mask_eq_maskOf]
  rw [and_shiftLeft, BitVec.ushiftRight_xor_distrib, shiftLeft_ushiftRight_of_fits hread h.align_bounds.2,
    BitVec.xor_comm, xor_and_maskOf h.width_le hout hread]

/-- A register of eight bits whose low CRC_SHIFT bits are clear is shifted out of the width by one byte. -/
theorem shifted_out_of_narrow (hw : e.w ≤ 8) {acc : Word} (ha : acc.toNat < 2 ^ 8) (hd : 2 ^ e.cs ∣ acc.toNat) :
    ((acc <<< (8 - e.cs)) >>> e.cs) &&& maskOf e.w = 0#32 := by
  obtain ⟨k, hk⟩ := hd
  have hcs := h.crcShift_eq
  have hshift : 8 - e.cs = e.w := by omega
  rw [hshift, ← BitVec.toNat_inj, toNat_and_maskOf h.width_le, BitVec.toNat_ushiftRight,
    toNat_shiftLeft_of_fits ha (by omega), hk, Nat.shiftRight_eq_div_pow, Nat.mul_assoc,
    Nat.mul_div_cancel_left _ (Nat.two_pow_pos _), Nat.mul_mod_left, BitVec.toNat_zero]

/-- At WIDTH 32 the register fills the word, so nothing is masked. -/
theorem stepNonreflected_of_word (hw : e.w = 32) (acc : Word) (b : Byte) :
    stepNonreflected e acc b = tableRead e.table ((acc >>> 24) ^^^ b.setWidth 32).toNat ^^^ (acc <<< 8) := by
  have hcs : e.cs = 0 := by have := h.crcShift_eq; omega
  have halign : e.align = 24 := by simp [Engine.align, hw, hcs]
  have hmask : e.mask = BitVec.allOnes 32 := by rw [h.mask_eq_maskOf, hw]; rfl
  have htop : (acc >>> 24).toNat < 2 ^ 8 := by
    rw [BitVec.toNat_ushiftRight, Nat.shiftRight_eq_div_pow]
    omega
  simp only [stepNonreflected, hcs, halign, hmask, BitVec.shiftLeft_zero, BitVec.and_allOnes]
  rw [and_ff_of_lt (toNat_xor_lt htop (toNat_setWidth_byte_lt b))]

end

/-- Settles O41: up to WIDTH 8 the shift by a byte leaves nothing of the register, and at WIDTH 32 no bit of the step is
masked. -/
theorem tableStepCornerCases : Obligations.TableStepCornerCases := by
  intro e acc b h
  have hcs := h.crcShift_eq
  have halign (hw : e.w ≤ 8) : acc >>> e.align = acc := by
    rw [Engine.align, show e.w + e.cs - 8 = 0 by omega, BitVec.ushiftRight_zero]
  refine ⟨fun hw ha => stepReflected_of_narrow h hw ha b, fun hw ha hd => ?_, fun hw ha => ?_,
    fun hw => stepNonreflected_of_word h hw acc b⟩
  · rw [stepNonreflected_of_shifted_out h b (shifted_out_of_narrow h (by omega) ha hd), halign (by omega)]
  · have hzero : e.cs = 0 := by omega
    have hd : 2 ^ e.cs ∣ acc.toNat := by
      rw [hzero]
      exact Nat.one_dvd _
    rw [stepNonreflected_of_shifted_out h b (shifted_out_of_narrow h (by omega) ha hd), halign (by omega), hzero,
      BitVec.shiftLeft_zero, and_ff_of_lt (toNat_xor_lt ha (toNat_setWidth_byte_lt b))]

/-! ### R136, R152: the bounds of the checksums -/

/-- Either path's function of the bytes is its finish of the register that its bytes leave (R137, R153). -/
theorem checksumOn_eq (p : Path) (e : Engine) (bs : List Byte) :
    checksumOn p e bs = finOn p e (bs.foldl (stepOn p e) (initOn p e)) := by cases p <;> rfl

/-- The finish of a register of its path's form fits WIDTH, and each byte keeps the form. -/
theorem checksumOn_lt {e : Engine} (h : e.Valid) (p : Path) (bs : List Byte) :
    (checksumOn p e bs).toNat < 2 ^ e.w := by
  rw [checksumOn_eq]
  exact finOn_lt h (foldl_stepOn_form h bs (initOn_form h p))

/-- Settles O43, path by path. -/
theorem checksumsFitTheWidth : Obligations.ChecksumsFitTheWidth :=
  fun _ bs h => ⟨checksumOn_lt h .table bs, checksumOn_lt h .reference bs⟩

/-! ### R151: the reference step -/

/-- Masking before a shift left changes nothing under the same mask behind it. -/
theorem and_maskOf_shiftLeft {n : Nat} (hn : n ≤ 32) (x : Word) (k : Nat) :
    ((x &&& maskOf n) <<< k) &&& maskOf n = (x <<< k) &&& maskOf n := by
  refine BitVec.eq_of_getLsbD_eq fun j hj => ?_
  simp only [BitVec.getLsbD_and, BitVec.getLsbD_shiftLeft, getLsbD_maskOf hn]
  by_cases hjn : j < n
  · simp [hjn, show j - k < n by omega]
  · simp [hjn]

section
variable {e : Engine} (h : e.Valid)
include h

/-- With poly 0 a bit-step shifts, whatever the input bit. -/
theorem refBit_of_poly_zero (hp : e.poly = 0#32) (b : Byte) (acc : Word) (k : Nat) :
    refBit e b acc k = (acc <<< 1) &&& maskOf e.w := by
  simp only [refBit, hp, BitVec.xor_zero, ite_self, h.mask_eq_maskOf]

/-- With poly 0, bit-steps shift by as many bits as they take. -/
theorem foldl_refBit_of_poly_zero (hp : e.poly = 0#32) (b : Byte) (ks : List Nat) {acc : Word}
    (ha : acc.toNat < 2 ^ e.w) : ks.foldl (refBit e b) acc = (acc <<< ks.length) &&& maskOf e.w := by
  induction ks generalizing acc with
  | nil => rw [List.foldl_nil, List.length_nil, BitVec.shiftLeft_zero, and_maskOf_of_lt h.width_le ha]
  | cons k ks ih =>
    rw [List.foldl_cons, refBit_of_poly_zero h hp, ih (toNat_and_maskOf_lt h.width_le _),
      and_maskOf_shiftLeft h.width_le, ← BitVec.shiftLeft_add, Nat.add_comm, List.length_cons]

/-- A register of one bit leaves the poly where its bit and the input bit differ. -/
theorem refBit_of_width_one (hw : e.w = 1) (b : Byte) (acc : Word) (k : Nat) :
    refBit e b acc k = if acc.getLsbD 0 != b.getLsbD k then e.poly &&& 1#32 else 0#32 := by
  refine BitVec.eq_of_getLsbD_eq fun i _ => ?_
  rw [getLsbD_refBit h, hw]
  by_cases hi : i = 0
  · subst hi
    cases hd : acc.getLsbD 0 <;> cases b.getLsbD k <;> simp
  · have hone : (1#32).getLsbD i = false := by simp [hi]
    rw [decide_eq_false (by omega), Bool.false_and]
    split <;> simp [hone]

end

/-- Settles O45. -/
theorem referenceStepCornerCases : Obligations.ReferenceStepCornerCases := by
  refine fun e acc b h ha => ⟨stepRef_lt h acc ha b, fun hp => ?_, fun hw => refBit_of_width_one h hw b acc⟩
  rw [h.mask_eq_maskOf]
  exact foldl_refBit_of_poly_zero h hp _ _ ha

/-! ### R38: the table path's register -/

/-- Settles O46: the registers correspond at INIT, and every byte keeps the correspondence, variant by variant. -/
theorem tableAccIsReferenceAccInItsForm : Obligations.TableAccIsReferenceAccInItsForm := by
  intro e bs h
  have hsame := sameRegister_foldl h bs (initOn_form h .reference) (sameRegister_init h)
  exact ⟨fun hv => (sameRegister_reflected hv).1 hsame, fun hv => (sameRegister_nonreflected hv).1 hsame,
    fun hv => (sameRegister_fast hv).1 hsame⟩

end Sys2Proof.Machine
end

section
/-! The statements of 44_message_commands.md about INIT, BYTE and FINAL (R161 to R164) and a whole message (R165). -/

namespace Sys2Proof.Machine

/-! ### R161, R162: INIT -/

/-- Settles O49: what INIT.T loads is the variant's initial register, and SHIFTED_XOR_IN is XOR_IN shifted. -/
theorem initTLoadsTheVariantsRegister : Obligations.InitTLoadsTheVariantsRegister := by
  refine fun s hinv => ⟨fun hc => ⟨initTable s.engine, openOn_of_valid hc .table, fun hv => ?_, fun hv => ?_,
    fun hv => ?_⟩, fun hc => openOn_of_invalid hc .table⟩
  · simp only [initTable, hv, (hinv.configured hc).reflectedXorIn_eq]
  · simp only [initTable, hv, (hinv.configured hc).shiftedXorIn_eq]
  · simp only [initTable, hv]

/-- Settles O50. -/
theorem initNLoadsXorIn : Obligations.InitNLoadsXorIn :=
  fun _ => ⟨fun hc => openOn_of_valid hc .reference, fun hc => openOn_of_invalid hc .reference⟩

/-! ### R163: BYTE -/

/-- The shift that aligns the register's top byte (R133). -/
theorem Engine.Valid.align_eq {e : Engine} (h : e.Valid) : e.align = max 8 e.w - 8 := by
  have := h.crcShift_eq
  unfold Engine.align
  omega

/-- Settles O51: BYTE takes the step of PATH and VARIANT. -/
theorem byteStepsAcc : Obligations.ByteStepsAcc := by
  refine fun b s hinv => ⟨fun hm => ⟨stepOn s.path s.engine s.acc b, execByte_of_open hm b, fun hp hv => ?_,
    fun hp hv => ?_, fun hp hv => ?_, fun hp => ?_⟩, fun hm => execByte_of_idle hm b⟩
  · simp only [hp, stepOn, stepTable, hv, stepReflected]
  · have halign := (hinv.configured (hinv.opened hm).1).align_eq
    simp only [hp, stepOn, stepTable, hv, stepNonreflected, halign]
  · simp only [hp, stepOn, stepTable, hv, stepFast]
  · simp only [hp, stepOn]

/-! ### R164: FINAL -/

/-- Settles O52: FINAL takes the finish of PATH and, on the table path, VARIANT. -/
theorem finalWritesTheChecksum : Obligations.FinalWritesTheChecksum := by
  refine fun s _ => ⟨fun hm => ⟨finOn s.path s.engine s.acc, execFinal_of_open hm, fun hp hv => ?_, fun hp hv => ?_,
    fun hp hv => ?_, fun hp hr => ?_, fun hp hr => ?_⟩, execFinal_of_idle⟩
  · simp only [hp, finOn, finTable, hv]
  · simp only [hp, finOn, finTable, hv]
  · simp only [hp, finOn, finTable, hv]
  · simp only [hp, finOn, finRef, hr, if_true]
  · simp only [hp, finOn, finRef, hr, Bool.false_eq_true, if_false]

/-! ### The events inside a message (R59, R163, R165, R167) -/

/-- The event that feeds a byte is the one that runs its BYTE command (R59, R163). -/
theorem fed_eq_some {ev : HostEvent} {b : Byte} : ev.fed = some b ↔ ev.runs (.byte b) := by
  unfold HostEvent.fed HostEvent.runs
  cases ev.cmdWord? with
  | none => simp
  | some v =>
    simp only [Option.some_inj, exists_eq_left']
    cases decode v with
    | illegal d => simp
    | command i => cases i <;> simp

/-- The command an event runs is the only one it runs. -/
theorem runs_unique {ev : HostEvent} {i j : Instr} (hi : ev.runs i) (hj : ev.runs j) : i = j := by
  obtain ⟨v, hv, hd⟩ := hi
  obtain ⟨u, hu, hd'⟩ := hj
  cases hv.symm.trans hu
  exact Verdict.command.inj (hd.symm.trans hd')

/-- An event that leaves an open message open: no reset, no INIT and no FINAL. -/
structure HostEvent.Inside (ev : HostEvent) : Prop where
  not_reset : ev ≠ .reset
  not_initT : ¬ ev.runs .initT
  not_initN : ¬ ev.runs .initN
  not_final : ¬ ev.runs .final

/-- A message open on a path under an engine, with this register (R38, R161, R162). -/
structure InMessage (p : Path) (e : Engine) (acc : Word) (s : State) : Prop where
  cfgValid : s.cfgValid = true
  msgOpen : s.msgOpen = true
  path : s.path = p
  engine : s.engine = e
  acc : s.acc = acc

/-- The register after an event inside a message: stepped by the byte it feeds, if it feeds one (R163, R167). -/
def accAfter (p : Path) (e : Engine) (acc : Word) (ev : HostEvent) : Word := ev.fed.elim acc (stepOn p e acc)

/-- Inside an open message an event feeds its byte or leaves the message alone. -/
theorem step_inside {p : Path} {e : Engine} {acc : Word} {s t : State} {ev : HostEvent} {rest : List HostEvent}
    (hs : InMessage p e acc s) (hev : ev.Inside) (hp : s.pending = ev :: rest) (h : step s = .next t) :
    InMessage p e (accAfter p e acc ev) t := by
  obtain ⟨hvalid, hopen, rfl, rfl, rfl⟩ := hs
  cases hf : ev.fed with
  | some b =>
    have hbyte := (step_runs hp (fed_eq_some.1 hf)).symm.trans h
    cases (execByte_of_open (s := s.setBus rest none) hopen b).symm.trans hbyte
    exact ⟨hvalid, hopen, rfl, rfl, by rw [accAfter, hf]; rfl⟩
  | none =>
    rw [accAfter, hf, Option.elim_none]
    rcases step_outcome h with hsame | ⟨⟨_, hreset⟩, -⟩ | ⟨i, _, ⟨_, _, hcmd, hruns⟩, hn, rfl⟩
    · exact ⟨hsame.cfgValid.trans hvalid, hsame.msgOpen.trans hopen, hsame.path, hsame.engine, hsame.acc⟩
    · cases hp.symm.trans hreset
      exact absurd rfl hev.not_reset
    · cases hp.symm.trans hcmd
      cases i with
      | configure w r => exact absurd hn (errorOf_configure_of_open hopen w r)
      | mirror n | tblrd i => exact ⟨hvalid, hopen, rfl, rfl, rfl⟩
      | initT => exact absurd hruns hev.not_initT
      | initN => exact absurd hruns hev.not_initN
      | final => exact absurd hruns hev.not_final
      | byte b => cases hf.symm.trans (fed_eq_some.2 hruns)

/-! ### R165: a whole message -/

/-- An event that feeds a byte runs BYTE, and so none of the other commands. -/
theorem inside_of_fed {ev : HostEvent} {b : Byte} (h : ev.fed = some b) : ev.Inside := by
  have hb := fed_eq_some.1 h
  refine ⟨?_, fun hr => ?_, fun hr => ?_, fun hr => ?_⟩
  · rintro rfl
    cases h
  all_goals cases runs_unique hb hr

theorem inside_of_quiet {ev : HostEvent} (h : ev.quiet = true) : ev.Inside := by
  refine ⟨?_, fun hr => ?_, fun hr => ?_, fun hr => ?_⟩
  · rintro rfl
    cases h
  all_goals cases quietCommand_of_runs h hr

/-- The events of a message body stand inside the message, and are answered. -/
theorem inside_of_messageBody {body : List HostEvent} (hb : messageBody body) {ev : HostEvent} (hev : ev ∈ body) :
    ev.Inside := by
  rcases hb ev hev with hq | hf
  · exact inside_of_quiet hq
  · obtain ⟨b, hf⟩ := Option.isSome_iff_exists.1 hf
    exact inside_of_fed hf

/-- A command word written to CMD runs `execute`. -/
theorem step_cmdWord {s : State} {ev : HostEvent} {rest : List HostEvent} {v : Word} (hv : ev.cmdWord? = some v)
    (hp : s.pending = ev :: rest) : step s = execute v (s.setBus rest none) := by
  rw [cmdWord?_eq_some] at hv
  subst hv
  exact step_cmd hp

theorem step_body_answers {body : List HostEvent} (hb : messageBody body) {ev : HostEvent} (hev : ev ∈ body)
    {s : State} {rest : List HostEvent} (hp : s.pending = ev :: rest) : ∃ t, step s = .next t := by
  rcases hb ev hev with hq | hf
  · exact step_quiet_answers hq hp
  · obtain ⟨b, hf⟩ := Option.isSome_iff_exists.1 hf
    obtain ⟨v, hv, -⟩ := fed_eq_some.1 hf
    rw [step_cmdWord hv hp]
    exact execute_answers v _

/-- The bytes of a message step the register event by event. -/
theorem foldl_fedBytes_cons (p : Path) (e : Engine) (acc : Word) (ev : HostEvent) (body : List HostEvent) :
    (fedBytes (ev :: body)).foldl (stepOn p e) acc =
      (fedBytes body).foldl (stepOn p e) (accAfter p e acc ev) := by
  unfold fedBytes accAfter
  cases hf : ev.fed with
  | none => rw [List.filterMap_cons_none hf, Option.elim_none]
  | some b => rw [List.filterMap_cons_some hf, Option.elim_some, List.foldl_cons]

/-- The events of a message body run to the end, and leave the message open with the register of the bytes they feed. -/
theorem run_body {p : Path} {e : Engine} {acc : Word} {s : State} {body rest : List HostEvent}
    (hs : InMessage p e acc s) (hb : messageBody body) (hp : s.pending = body ++ rest) :
    ∃ t, run body.length s = .next t ∧ InMessage p e ((fedBytes body).foldl (stepOn p e) acc) t ∧
      t.pending = rest ∧
      ((∀ ev ∈ body, ∃ v, ev.cmdWord? = some v) → t.arg0 = s.arg0 ∧ t.arg1 = s.arg1 ∧ t.arg2 = s.arg2) := by
  induction body generalizing s acc with
  | nil => exact ⟨s, rfl, hs, hp, fun _ => ⟨rfl, rfl, rfl⟩⟩
  | cons ev body ih =>
    have hev : ev ∈ ev :: body := List.mem_cons_self
    obtain ⟨u, hu⟩ := step_body_answers hb hev hp
    have hin := step_inside hs (inside_of_messageBody hb hev) hp hu
    obtain ⟨t, ht, hmsg, hrest, hargs⟩ := ih hin (fun x hx => hb x (List.mem_cons_of_mem ev hx)) (step_rest hp hu)
    refine ⟨t, (run_succ_of_step hu body.length).trans ht, foldl_fedBytes_cons p e acc ev body ▸ hmsg, hrest,
      fun hcmd => ?_⟩
    obtain ⟨v, hv⟩ := hcmd ev hev
    obtain ⟨h0, h1, h2⟩ := execute_args ((step_cmdWord hv hp).symm.trans hu)
    obtain ⟨k0, k1, k2⟩ := hargs fun x hx => hcmd x (List.mem_cons_of_mem ev hx)
    exact ⟨k0.trans h0, k1.trans h1, k2.trans h2⟩

/-- With CFG_VALID = 1 the event of INIT opens a message on its path and touches no operand register. -/
theorem step_init {s : State} {p : Path} {ev : HostEvent} {rest : List HostEvent} (hc : s.cfgValid = true)
    (hev : ev.runs (initInstr p)) (hp : s.pending = ev :: rest) :
    ∃ t, step s = .next t ∧ t.err = .ok ∧ InMessage p s.engine (initOn p s.engine) t ∧
      t.arg0 = s.arg0 ∧ t.arg1 = s.arg1 ∧ t.arg2 = s.arg2 := by
  have hopen := openOn_of_valid (s := s.setBus rest none) hc p
  exact ⟨_, (step_runs hp hev).trans ((exec_initInstr p _).trans hopen), rfl, ⟨hc, rfl, rfl, rfl, rfl⟩, rfl, rfl, rfl⟩

/-- BYTE and FINAL succeed in an open message. -/
theorem step_message_command {s : State} {i : Instr} (hi : i = .final ∨ ∃ b, i = .byte b) {ev : HostEvent}
    {rest : List HostEvent} (hm : s.msgOpen = true) (hev : ev.runs i) (hp : s.pending = ev :: rest) :
    ∃ t, step s = .next t ∧ t.err = .ok := by
  rw [step_runs hp hev]
  rcases hi with rfl | ⟨b, rfl⟩
  · exact ⟨_, execFinal_of_open (s := s.setBus rest none) hm, rfl⟩
  · exact ⟨_, execByte_of_open (s := s.setBus rest none) hm b, rfl⟩

/-- The event of FINAL closes the message with the finish of its register, and touches nothing else. -/
theorem step_final {p : Path} {e : Engine} {acc : Word} {s : State} {ev : HostEvent} {rest : List HostEvent}
    (hs : InMessage p e acc s) (hev : ev.runs .final) (hp : s.pending = ev :: rest) :
    step s = .next { s.setBus rest none with result := finOn p e acc, msgOpen := false, err := .ok } := by
  obtain ⟨-, hopen, rfl, rfl, rfl⟩ := hs
  exact (step_runs hp hev).trans (execFinal_of_open (s := s.setBus rest none) hopen)

/-- An event behind INIT in a message is FINAL at the end of the body, or in the body. -/
theorem split_message {body pre post : List HostEvent} {last ev : HostEvent}
    (h : body ++ [last] = pre ++ ev :: post) :
    (body = pre ∧ last = ev) ∨ ∃ post', body = pre ++ ev :: post' := by
  rcases List.eq_nil_or_concat post with rfl | ⟨post', x, rfl⟩
  · obtain ⟨hbody, hlast⟩ := List.append_inj' h rfl
    exact .inl ⟨hbody, List.head_eq_of_cons_eq hlast⟩
  · rw [List.concat_eq_append, ← List.cons_append, ← List.append_assoc] at h
    exact .inr ⟨post', (List.append_inj' h rfl).1⟩

/-- An event behind INIT that is not quiet runs BYTE or FINAL, and what stands before it is a message body. -/
theorem message_command_of_split {body pre post : List HostEvent} {last ev : HostEvent} (hb : messageBody body)
    (hlast : last.runs .final) (h : body ++ [last] = pre ++ ev :: post) (hquiet : ev.quiet = false) :
    messageBody pre ∧ ∃ i, (i = .final ∨ ∃ b, i = .byte b) ∧ ev.runs i := by
  rcases split_message h with ⟨rfl, rfl⟩ | ⟨post', rfl⟩
  · exact ⟨hb, .final, .inl rfl, hlast⟩
  · have hfed := (hb ev (List.mem_append_right pre List.mem_cons_self)).resolve_left (by simp [hquiet])
    obtain ⟨b, hf⟩ := Option.isSome_iff_exists.1 hfed
    exact ⟨fun x hx => hb x (List.mem_append_left _ hx), .byte b, .inr ⟨b, rfl⟩, fed_eq_some.1 hf⟩

/-- Settles O53: INIT opens the message, its body steps the register by the bytes it feeds, and FINAL finishes it; every
event on the way that is not quiet is one of these commands, and succeeds in an open message. -/
theorem messageComputesItsChecksum : Obligations.MessageComputesItsChecksum := by
  intro s p first last body rest hc hfirst hlast hb hp
  obtain ⟨u, hu, huok, hin, h0, h1, h2⟩ := step_init hc hfirst hp
  have hpu : u.pending = body ++ last :: rest := step_rest hp hu
  constructor
  · intro pre ev post hsplit hquiet
    cases pre with
    | nil =>
      obtain ⟨rfl, -⟩ := List.cons.inj hsplit
      exact ⟨u, run_succ_of_step hu 0, huok⟩
    | cons x pre =>
      have hsplit : body ++ [last] = pre ++ ev :: post := (List.cons.inj hsplit).2
      obtain ⟨hpre, i, hi, hruns⟩ := message_command_of_split hb hlast hsplit hquiet
      have hpending : u.pending = pre ++ ev :: (post ++ rest) := by
        rw [hpu, List.append_cons, hsplit, List.append_assoc, List.cons_append]
      obtain ⟨v, hv, hmsg, hpv, -⟩ := run_body hin hpre hpending
      obtain ⟨t, ht, hok⟩ := step_message_command hi hmsg.msgOpen hruns hpv
      exact ⟨t, (run_succ_of_step hu _).trans ((run_add hv 1).trans (run_succ_of_step ht 0)), hok⟩
  · obtain ⟨v, hv, hmsg, hpv, hargs⟩ := run_body hin hb hpu
    have hfin := step_final hmsg hlast hpv
    refine ⟨_, (run_succ_of_step hu _).trans ((run_add hv 1).trans (run_succ_of_step hfin 0)), rfl,
      (checksumOn_eq ..).symm, rfl, hmsg.path, hmsg.engine, hmsg.cfgValid, fun hcmd => ?_⟩
    obtain ⟨k0, k1, k2⟩ := hargs hcmd
    exact ⟨k0.trans h0, k1.trans h1, k2.trans h2⟩

end Sys2Proof.Machine
end

section
/-! Two cores side by side, one on each path: what the events they share keep, and what FINAL ends with (R38, R154). -/

namespace Sys2Proof.Machine

theorem SideBySide.table_message {s r : State} (h : SideBySide s r) : InMessage .table s.engine s.acc s :=
  ⟨(h.table_inv.opened h.table_open).1, h.table_open, h.table_path, rfl, rfl⟩

theorem SideBySide.reference_message {s r : State} (h : SideBySide s r) : InMessage .reference s.engine r.acc r :=
  ⟨(h.reference_inv.opened h.reference_open).1, h.reference_open, h.reference_path, h.engine_eq.symm, rfl⟩

/-- The engine of two cores side by side is valid, and the reference register is of its form. -/
theorem SideBySide.valid {s r : State} (h : SideBySide s r) : s.engine.Valid :=
  h.table_inv.configured h.table_message.cfgValid

theorem SideBySide.reference_form {s r : State} (h : SideBySide s r) : AccForm .reference s.engine r.acc := by
  obtain ⟨-, hform⟩ := h.reference_inv.opened h.reference_open
  rwa [h.reference_path, ← h.engine_eq] at hform

/-- Open messages on the two paths under one engine, with corresponding registers, are side by side. -/
theorem InMessage.sideBySide {e : Engine} {a b : Word} {s r : State} (hs : InMessage .table e a s)
    (hr : InMessage .reference e b r) (his : Inv s) (hir : Inv r) (hsame : SameRegister e a b) : SideBySide s r := by
  obtain ⟨-, hso, hsp, rfl, rfl⟩ := hs
  obtain ⟨-, hro, hrp, hre, rfl⟩ := hr
  exact ⟨his, hir, hre.symm, hso, hro, hsp, hrp, hsame⟩

/-- An event inside a message, on both paths: both registers step by its byte, or both stay (R38). -/
theorem sameRegister_accAfter {e : Engine} (h : e.Valid) {t r : Word} (hr : AccForm .reference e r)
    (hs : SameRegister e t r) (ev : HostEvent) :
    SameRegister e (accAfter .table e t ev) (accAfter .reference e r ev) := by
  unfold accAfter
  cases ev.fed with
  | none => exact hs
  | some b => exact sameRegister_step h hr hs b

/-- INIT.T on the one core and INIT.N on the other put them side by side. -/
theorem sideBySide_of_init {s r : State} {evS evR : HostEvent} {restS restR : List HostEvent} (his : Inv s)
    (hir : Inv r) (he : s.engine = r.engine) (hcs : s.cfgValid = true) (hcr : r.cfgValid = true)
    (hps : s.pending = evS :: restS) (hpr : r.pending = evR :: restR) (hT : evS.runs .initT) (hN : evR.runs .initN) :
    ∃ t u, step s = .next t ∧ step r = .next u ∧ SideBySide t u := by
  obtain ⟨t, ht, -, hmt, -⟩ := step_init (p := .table) hcs hT hps
  obtain ⟨u, hu, -, hmu, -⟩ := step_init (p := .reference) hcr hN hpr
  rw [← he] at hmu
  exact ⟨t, u, ht, hu, hmt.sideBySide hmu (step_inv his ht) (step_inv hir hu)
    (sameRegister_init (his.configured hcs))⟩

section
variable {s r : State} {ev : HostEvent} {restS restR : List HostEvent} (h : SideBySide s r)
  (hps : s.pending = ev :: restS) (hpr : r.pending = ev :: restR)
include h hps hpr

/-- A shared event inside the messages that both cores answer keeps them side by side. -/
theorem SideBySide.step_inside (hev : ev.Inside) (hsupported : ev.supported = true) :
    ∃ t u, step s = .next t ∧ step r = .next u ∧ SideBySide t u := by
  obtain ⟨t, ht⟩ := step_supported hsupported hps
  obtain ⟨u, hu⟩ := step_supported hsupported hpr
  have hmt := Machine.step_inside h.table_message hev hps ht
  have hmu := Machine.step_inside h.reference_message hev hpr hu
  exact ⟨t, u, ht, hu, hmt.sideBySide hmu (step_inv h.table_inv ht) (step_inv h.reference_inv hu)
    (sameRegister_accAfter h.valid h.reference_form h.same_register ev)⟩

/-- A shared FINAL closes both messages with the same RESULT. -/
theorem SideBySide.step_final (hev : ev.runs .final) :
    ∃ t u, step s = .next t ∧ step r = .next u ∧ t.err = .ok ∧ u.err = .ok ∧ t.msgOpen = false ∧
      u.msgOpen = false ∧ t.result = u.result :=
  ⟨_, _, Machine.step_final h.table_message hev hps, Machine.step_final h.reference_message hev hpr, rfl, rfl, rfl, rfl,
    finTable_eq_finRef h.valid h.reference_form h.same_register⟩

end

/-- Settles O58: INIT starts the correspondence of the registers, an event inside the messages keeps it or is refused
for what it is, and corresponding registers finish alike. -/
theorem pathsRunSideBySide : Obligations.PathsRunSideBySide := by
  refine ⟨fun s r evS evR restS restR his hir he hcs hcr hps hpr hT hN =>
    sideBySide_of_init his hir he hcs hcr hps hpr hT hN, fun s r ev restS restR h hps hpr => ⟨?_, h.step_final hps hpr⟩⟩
  intro hreset hT hN hF
  refine ⟨h.step_inside hps hpr ⟨hreset, hT, hN, hF⟩, fun hunsupported => ?_⟩
  obtain ⟨x, hx⟩ := step_unsupported hunsupported
  exact ⟨x, hx s restS hps, hx r restR hpr⟩

end Sys2Proof.Machine
end
